-- ==== Sys2Proof/Word.lean ====
section
/-! DEFINITION. The widths of the machine's values: 00_scope R5 (widths) and R7 (every value is an unsigned integer of a
stated width; arithmetic is modulo that width, which is what BitVec arithmetic is). -/

namespace Sys2Proof

/-- 8 bits: a V register, an immediate `nn`, a key code, a random byte, a byte of memory (R7). -/
abbrev Byte := BitVec 8

/-- 16 bits: I, pc, a stack entry, an instruction word (R7). -/
abbrev Word := BitVec 16

/-- The 12-bit address field `addr` (R7, R81). -/
abbrev Addr12 := BitVec 12

/-- The 4-bit register index field; it can name nothing but V0..VF (R20, R22). -/
abbrev RegIx := BitVec 4

end Sys2Proof
end

