-- ==== Sys2Proof/Config.lean ====
section
/-! DEFINITION. The fixed sizes of 00_scope R5, and the values the spec leaves open (93_implementation_defined part 2) as
constants without a body: nothing can be proved about what they are. -/

namespace Sys2Proof

/-- The answer of the key query: the code of the key now pressed, or "none" (00_scope R5, D9). -/
inductive KeyResult where
  /-- No key is pressed. -/
  | noKey
  /-- The key with this 8-bit code is pressed. -/
  | key (k : Byte)
deriving DecidableEq, Repr, Inhabited

/-- `ADDR_MAX` (R5): the highest address of memory. -/
def Config.addrMax : Nat := 0xFFF

/-- `PROGRAM_BASE` (R5): where the loader puts the first byte, and the pc after reset. -/
def Config.programBase : Nat := 0x200

/-- `MAX_PROGRAM` (R5): the longest program, in bytes. -/
def Config.maxProgram : Nat := 3584

/-- The default of the parameter `STACK_CAPACITY` (R5). The parameter itself is `Environment.stackCapacity` (log 3). -/
def Config.defaultStackCapacity : Nat := 64

/-- FREE VALUE (log 4): the answer to the n-th key query (R10, R118, R120). -/
opaque Config.keyAnswer : Nat → KeyResult

/-- FREE VALUE (log 5): the n-th random byte drawn (R10, R118, R152). -/
opaque Config.randomByte : Nat → Byte

/-- FREE VALUE (log 6): what the n-th overlong load leaves in the 3584 bytes of the program area (R205). -/
opaque Config.overflowBytes : Nat → Vector Byte 3584

end Sys2Proof
end

