-- ==== Sys2Proof/Syntax.lean ====
section
/-! DEFINITION. The instructions: one constructor for each row of spec/opcode_table.json, in the table's order (30_encoding
R86), the fallback row included (R85: every word decodes to one of them). -/

namespace Sys2Proof

/-- An instruction with its decoded fields (30_encoding R81, R84, R85). Every operand has the width of its field, so every
operand value is one the encoding admits. -/
inductive Instr where
  /-- `RET` (41_flow R130). -/
  | ret
  /-- `JP addr` (41_flow R131). -/
  | jp (addr : Addr12)
  /-- `CALL addr` (41_flow R132). -/
  | call (addr : Addr12)
  /-- `SE Vx, nn` (42_skip R140). -/
  | se (x : RegIx) (nn : Byte)
  /-- `SNE Vx, nn` (42_skip R141). -/
  | sne (x : RegIx) (nn : Byte)
  /-- `LD Vx, nn` (43_register R150). -/
  | ldV (x : RegIx) (nn : Byte)
  /-- `ADD Vx, nn` (43_register R151). -/
  | addV (x : RegIx) (nn : Byte)
  /-- `LD I, addr` (44_address R160). -/
  | ldI (addr : Addr12)
  /-- `RND Vx, nn` (43_register R152). -/
  | rnd (x : RegIx) (nn : Byte)
  /-- `DRW Vx, Vy, n` (45_draw R170): the fields are decoded and unused. -/
  | drw (x y n : BitVec 4)
  /-- `SKNP Vx` (42_skip R142). -/
  | sknp (x : RegIx)
  /-- `ADD I, Vx` (44_address R161). -/
  | addI (x : RegIx)
  /-- The fallback row: the raw word, which no other row matches (30_encoding R87, 60_exceptions R202). -/
  | unimplemented (word : Word)
deriving DecidableEq, Repr

end Sys2Proof
end

