-- ==== Sys2Proof/WellFormed.lean ====
section
/-! DEFINITION. Which instruction terms stand for a word. The operand types already hold exactly the values of their fields;
the one check left is that the raw word of `unimplemented` is a word of the unimplemented space. -/

namespace Sys2Proof

/-- The unimplemented space, class by class, as the table of 30_encoding R87 lists it. Written on numbers, without the
decoder's field functions, so that the two can be proved to agree. -/
def inUnimplementedSpace (w : Word) : Bool :=
  let cls := w.toNat / 0x1000
  let low := w.toNat % 0x100
  (cls == 0x0 && w.toNat != 0x00EE) || cls == 0x5 || cls == 0x8 || cls == 0x9 || cls == 0xB
    || (cls == 0xE && low != 0xA1) || (cls == 0xF && low != 0x1E)

/-- An instruction is well formed when some word decodes to it. -/
def Instr.wf : Instr → Bool
  | .unimplemented w => inUnimplementedSpace w
  | .ret => true
  | .jp _ => true
  | .call _ => true
  | .se _ _ => true
  | .sne _ _ => true
  | .ldV _ _ => true
  | .addV _ _ => true
  | .ldI _ => true
  | .rnd _ _ => true
  | .drw _ _ _ => true
  | .sknp _ => true
  | .addI _ => true

end Sys2Proof
end

