-- ==== Sys2Proof/Decode.lean ====
section
/-! DEFINITION. The fields of an instruction word, the decoder, the encoder, the opcode map and the byte order: 30_encoding
R80-R90 and 20_memory R53. -/

namespace Sys2Proof

/-! ## Fields (30_encoding R81) -/

/-- The opcode class, w[15:12]. -/
def fieldClass (w : Word) : BitVec 4 := w.extractLsb' 12 4

/-- X (`reg`), w[11:8]. -/
def fieldX (w : Word) : RegIx := w.extractLsb' 8 4

/-- Y, w[7:4]; only DRW has it. -/
def fieldY (w : Word) : BitVec 4 := w.extractLsb' 4 4

/-- N, w[3:0]; only DRW has it. -/
def fieldN (w : Word) : BitVec 4 := w.extractLsb' 0 4

/-- NN (`nn`), and the low byte that selects SKNP and ADD I,Vx: w[7:0]. -/
def fieldNN (w : Word) : Byte := w.extractLsb' 0 8

/-- NNN (`addr`), w[11:0]. -/
def fieldAddr (w : Word) : Addr12 := w.extractLsb' 0 12

/-- The source's other formulation of `nn` (R82): the address field XOR X shifted left by 8, as a 12-bit value. -/
def nnByXor (w : Word) : Addr12 := fieldAddr w ^^^ ((fieldX w).setWidth 12 <<< 8)

/-! ## Decoding (30_encoding R85) -/

/-- The decoder: total on all 16-bit words; a word no row of the opcode map matches is `unimplemented`. RET is the whole word
0x00EE (90_conflicts C5). -/
def decode (w : Word) : Instr :=
  if w = 0x00EE#16 then .ret
  else if fieldClass w = 0x1#4 then .jp (fieldAddr w)
  else if fieldClass w = 0x2#4 then .call (fieldAddr w)
  else if fieldClass w = 0x3#4 then .se (fieldX w) (fieldNN w)
  else if fieldClass w = 0x4#4 then .sne (fieldX w) (fieldNN w)
  else if fieldClass w = 0x6#4 then .ldV (fieldX w) (fieldNN w)
  else if fieldClass w = 0x7#4 then .addV (fieldX w) (fieldNN w)
  else if fieldClass w = 0xA#4 then .ldI (fieldAddr w)
  else if fieldClass w = 0xC#4 then .rnd (fieldX w) (fieldNN w)
  else if fieldClass w = 0xD#4 then .drw (fieldX w) (fieldY w) (fieldN w)
  else if fieldClass w = 0xE#4 then
    if fieldNN w = 0xA1#8 then .sknp (fieldX w) else .unimplemented w
  else if fieldClass w = 0xF#4 then
    if fieldNN w = 0x1E#8 then .addI (fieldX w) else .unimplemented w
  else .unimplemented w

/-! ## Encoding (30_encoding R84, R90) -/

/-- Format A: a class and an address. -/
def formA (c : BitVec 4) (addr : Addr12) : Word := c ++ addr

/-- Formats XN and XK: a class, a register and a byte (an immediate, or the fixed low byte). -/
def formXN (c : BitVec 4) (x : RegIx) (nn : Byte) : Word := (c ++ x) ++ nn

/-- Format XYN: a class, two registers and a nibble. -/
def formXYN (c x y n : BitVec 4) : Word := ((c ++ x) ++ y) ++ n

/-- The word of an instruction: the inverse of `decode` on well-formed instructions (R90). -/
def encode : Instr → Word
  | .ret => 0x00EE#16
  | .jp addr => formA 0x1#4 addr
  | .call addr => formA 0x2#4 addr
  | .se x nn => formXN 0x3#4 x nn
  | .sne x nn => formXN 0x4#4 x nn
  | .ldV x nn => formXN 0x6#4 x nn
  | .addV x nn => formXN 0x7#4 x nn
  | .ldI addr => formA 0xA#4 addr
  | .rnd x nn => formXN 0xC#4 x nn
  | .drw x y n => formXYN 0xD#4 x y n
  | .sknp x => formXN 0xE#4 x 0xA1#8
  | .addI x => formXN 0xF#4 x 0x1E#8
  | .unimplemented w => w

/-! ## The assembler spelling (30_encoding R90) -/

/-- One hexadecimal digit. -/
def hexDigit (n : Nat) : String :=
  ["0", "1", "2", "3", "4", "5", "6", "7", "8", "9", "A", "B", "C", "D", "E", "F"].getD n "0"

/-- An 8-bit number as R90 writes numbers. -/
def spellByte (n : Byte) : String := "0x" ++ hexDigit (n.toNat / 0x10) ++ hexDigit (n.toNat % 0x10)

/-- An address operand, 0x000-0xFFF. -/
def spellAddr (a : Addr12) : String :=
  "0x" ++ hexDigit (a.toNat / 0x100) ++ hexDigit (a.toNat / 0x10 % 0x10) ++ hexDigit (a.toNat % 0x10)

/-- A register, V0 to VF. -/
def spellReg (x : RegIx) : String := "V" ++ hexDigit x.toNat

/-- The spelling of an instruction; an unimplemented word has none. -/
def Instr.spelling : Instr → Option String
  | .ret => some "RET"
  | .jp addr => some ("JP " ++ spellAddr addr)
  | .call addr => some ("CALL " ++ spellAddr addr)
  | .se x nn => some ("SE " ++ spellReg x ++ ", " ++ spellByte nn)
  | .sne x nn => some ("SNE " ++ spellReg x ++ ", " ++ spellByte nn)
  | .ldV x nn => some ("LD " ++ spellReg x ++ ", " ++ spellByte nn)
  | .addV x nn => some ("ADD " ++ spellReg x ++ ", " ++ spellByte nn)
  | .ldI addr => some ("LD I, " ++ spellAddr addr)
  | .rnd x nn => some ("RND " ++ spellReg x ++ ", " ++ spellByte nn)
  | .drw x y n => some ("DRW " ++ spellReg x ++ ", " ++ spellReg y ++ ", 0x" ++ hexDigit n.toNat)
  | .sknp x => some ("SKNP " ++ spellReg x)
  | .addI x => some ("ADD I, " ++ spellReg x)
  | .unimplemented _ => none

/-! ## The opcode map (30_encoding R86) -/

/-- One row of the opcode map: a word matches when its masked bits are the pattern. -/
structure OpcodeRow where
  mnemonic : String
  pattern  : Word
  mask     : Word
deriving DecidableEq, Repr

/-- Does the row match the word (R86)? -/
def rowMatches (w : Word) (r : OpcodeRow) : Bool := w &&& r.mask == r.pattern

/-- The complete opcode map, in the source's order, with the mnemonics of spec/opcode_table.json. -/
def opcodeMap : List OpcodeRow :=
  [⟨"RET", 0x00EE#16, 0xFFFF#16⟩,
   ⟨"JP_addr", 0x1000#16, 0xF000#16⟩,
   ⟨"CALL_addr", 0x2000#16, 0xF000#16⟩,
   ⟨"SE_Vx_nn", 0x3000#16, 0xF000#16⟩,
   ⟨"SNE_Vx_nn", 0x4000#16, 0xF000#16⟩,
   ⟨"LD_Vx_nn", 0x6000#16, 0xF000#16⟩,
   ⟨"ADD_Vx_nn", 0x7000#16, 0xF000#16⟩,
   ⟨"LD_I_addr", 0xA000#16, 0xF000#16⟩,
   ⟨"RND_Vx_nn", 0xC000#16, 0xF000#16⟩,
   ⟨"DRW", 0xD000#16, 0xF000#16⟩,
   ⟨"SKNP_Vx", 0xE0A1#16, 0xF0FF#16⟩,
   ⟨"ADD_I_Vx", 0xF01E#16, 0xF0FF#16⟩]

/-- The mnemonics of the rows that match a word. -/
def matchingMnemonics (w : Word) : List String := (opcodeMap.filter (rowMatches w)).map (·.mnemonic)

/-- The mnemonics of an instruction's rows: one for an instruction of the map, none for an unimplemented word (R85, R86). -/
def Instr.mnemonics : Instr → List String
  | .ret => ["RET"]
  | .jp _ => ["JP_addr"]
  | .call _ => ["CALL_addr"]
  | .se _ _ => ["SE_Vx_nn"]
  | .sne _ _ => ["SNE_Vx_nn"]
  | .ldV _ _ => ["LD_Vx_nn"]
  | .addV _ _ => ["ADD_Vx_nn"]
  | .ldI _ => ["LD_I_addr"]
  | .rnd _ _ => ["RND_Vx_nn"]
  | .drw _ _ _ => ["DRW"]
  | .sknp _ => ["SKNP_Vx"]
  | .addI _ => ["ADD_I_Vx"]
  | .unimplemented _ => []

/-! ## Bytes (20_memory R53: the high byte stands first) -/

/-- The word of two bytes in the order they stand in memory. -/
def wordOfBytes (hi lo : Byte) : Word := hi ++ lo

/-- The byte of a word that stands at the lower address. -/
def highByte (w : Word) : Byte := w.extractLsb' 8 8

/-- The byte of a word that stands at the higher address. -/
def lowByte (w : Word) : Byte := w.extractLsb' 0 8

/-- Why a string of bytes holds no instruction. -/
inductive DecodeError where
  /-- Fewer than the two bytes of an instruction (R80). -/
  | truncated
deriving DecidableEq, Repr

/-- The instruction at the head of a string of bytes, and the bytes after it (R80: two bytes, whatever the instruction). -/
def decodeBytes : List Byte → Except DecodeError (Instr × List Byte)
  | hi :: lo :: rest => .ok (decode (wordOfBytes hi lo), rest)
  | _ => .error .truncated

/-- The instruction word that spec/opcode_table.json's bits `w` of a row of `nbits` bits stand for: the bits above are 0. -/
def tableWord (nbits w : Nat) : Word := BitVec.ofNat 16 (w % 2 ^ nbits)

/-- The instruction the decoder reads from the table's bits, laid out as the hardware stores them. -/
def decodeTableWord (nbits w : Nat) : Option Instr :=
  match decodeBytes [highByte (tableWord nbits w), lowByte (tableWord nbits w)] with
  | .ok (i, _) => some i
  | .error _ => none

end Sys2Proof
end

