-- ==== Sys2Proof/Machine/State.lean ====
section
/-! DEFINITION. The machine's state as plain data (10_state R42), the reasons a step can stop, and the state after reset
(10_state R43, 70_reset_and_hazards R250). -/

namespace Sys2Proof.Machine

/-- Memory (20_memory R50) as the bytes that differ from 0x00, by strictly rising address. -/
abbrev Memory := List Host.Cell

/-- What an address that is not listed reads as: 0x00, the reset contents of every byte (20_memory R69). -/
def Memory.unlisted : Byte := 0

/-- Every listed address is at least `lo` and at most 0xFFF, addresses rise strictly, and no listed byte is 0x00. -/
def Memory.wfFrom : Nat → Memory → Bool
  | _, [] => true
  | lo, (a, v) :: rest =>
    decide (lo ≤ a) && decide (a ≤ Config.addrMax) && (v != Memory.unlisted) && Memory.wfFrom (a + 1) rest

/-- The canonical form of a memory. Two memories in this form that read alike are equal. -/
def Memory.wf (m : Memory) : Bool := Memory.wfFrom 0 m

/-- `fault.code` (10_state R39): the legal values 0 and 2-6, by name. Code 1, FetchError, is never stored: it is `fetchErrorNumber`,
in results only. -/
inductive FaultCode where
  /-- 0: no fault; the core is not halted. -/
  | noFault
  /-- 2: Unimplemented (60_exceptions R202). -/
  | unimplemented
  /-- 3: StackUnderflow (R203). -/
  | stackUnderflow
  /-- 4: StackOverflow (R204). -/
  | stackOverflow
  /-- 5: LoadOverflow (R205). -/
  | loadOverflow
  /-- 6: BadHostIndex (R206). -/
  | badHostIndex
deriving DecidableEq, Repr

/-- The number of a fault code, in its 3 bits (10_state R39, 60_exceptions R200). -/
def FaultCode.number : FaultCode → BitVec 3
  | .noFault => 0
  | .unimplemented => 2
  | .stackUnderflow => 3
  | .stackOverflow => 4
  | .loadOverflow => 5
  | .badHostIndex => 6

/-- The fault record (10_state R39, R40). -/
structure FaultRecord where
  code : FaultCode
  word : Word
  addr : Word
deriving DecidableEq, Repr

/-- The empty fault record, its value at reset (R40). -/
def FaultRecord.empty : FaultRecord := ⟨.noFault, 0, 0⟩

/-- THE MODEL'S OWN FIELDS, no state of the spec's (10_state R42: "They are parameters of the step"). They stand in State
because exec and step take no other argument. -/
structure Environment where
  /-- `STACK_CAPACITY`, the parameter (00_scope R5, log 3). Nothing changes it. -/
  stackCapacity : Nat
  /-- How many key queries have been answered: which answer comes next (log 4). -/
  keyDraws : Nat
  /-- How many random bytes have been drawn: which byte comes next (log 5). -/
  randomDraws : Nat
  /-- How many overlong loads have left memory unspecified (log 6). -/
  overflowDraws : Nat
deriving DecidableEq, Repr

/-- The state of the core (10_state R42), field by field under the spec's names, and the model's `env`. -/
structure State where
  /-- The 4096 bytes of memory (20_memory R50). -/
  mem    : Memory
  /-- V0..VF (R20). -/
  V      : Vector Byte 16
  /-- The address register I (R25). -/
  I      : Word
  /-- The instruction pointer (R28). -/
  pc     : Word
  /-- The call stack, its top at the end (R33, R34). -/
  S      : List Word
  /-- The run-state flag: false is Running, true is Paused (R38). -/
  paused : Bool
  /-- The fault record (R40). -/
  fault  : FaultRecord
  /-- Parameters of the step (R42). -/
  env    : Environment
deriving DecidableEq, Repr

/-- Why a step answers no next state. The state is then unchanged, and the host's other operations still act on it. -/
inductive Fault where
  /-- Raised by `Machine.cycle`: the fetch at this pc, 0xFFF or more, fails (40_cycle R102, 60_exceptions R201). The machine is
  stuck: every further step raises it again. Safe: the spec changes no state there and reports the same. -/
  | fetchError (pc : Word)
  /-- Raised by `Machine.clockOutcome` on a core that a fatal fault has halted; carries the record (60_exceptions R208). Safe:
  the spec changes no state there and reports the same. -/
  | halted (record : FaultRecord)
deriving DecidableEq, Repr

/-- Why an instruction has no meaning. -/
inductive Refusal where
  /-- For an arm of exec that has no meaning yet. No arm raises it: every row of the opcode table has its meaning. Safe. -/
  | notModelled (mnemonic : String)
deriving DecidableEq, Repr

/-- The parameters of the step at the start: the spec's default capacity (00_scope R5) and no draw made yet (log 4, 5, 6). -/
def Environment.initial : Environment := ⟨Config.defaultStackCapacity, 0, 0, 0⟩

/-- The machine right after reset (10_state R43, 70_reset_and_hazards R250). -/
def State.reset : State :=
  { mem := []
    V := Vector.replicate 16 0
    I := 0
    pc := BitVec.ofNat 16 Config.programBase
    S := []
    paused := false
    fault := FaultRecord.empty
    env := Environment.initial }

/-- Halted: the fault record is set (10_state R40). -/
def State.halted (s : State) : Bool := s.fault.code != .noFault

end Sys2Proof.Machine
end

