-- ==== Sys2Proof/Machine/Ops.lean ====
section
/-! DEFINITION. The named operations over memory, the program counter, the call stack, the fault record and the capability
inputs: 20_memory R55-R58, 10_state R29-R34, 40_cycle R103, 60_exceptions R205, R207, 70_reset_and_hazards R250. -/

namespace Sys2Proof.Machine

/-! ## Memory -/

/-- The byte at an address (00_scope R9). -/
def Memory.read : Memory → Nat → Byte
  | [], _ => Memory.unlisted
  | (b, u) :: rest, a => if a = b then u else Memory.read rest a

/-- Set the byte at an address, keeping the canonical form: the value of an unlisted byte is not listed. -/
def Memory.write : Memory → Nat → Byte → Memory
  | [], a, v => if v = Memory.unlisted then [] else [(a, v)]
  | (b, u) :: rest, a, v =>
    if a < b then (if v = Memory.unlisted then (b, u) :: rest else (a, v) :: (b, u) :: rest)
    else if a = b then (if v = Memory.unlisted then rest else (a, v) :: rest)
    else (b, u) :: Memory.write rest a v

/-- Set the bytes from an address on, one after the other (the loop of 20_memory R58). -/
def Memory.writeBytes : Memory → Nat → List Byte → Memory
  | m, _, [] => m
  | m, a, v :: vs => Memory.writeBytes (Memory.write m a v) (a + 1) vs

/-- `MemRead(a, 1)` (R55); `none` is OutOfRange. -/
def memRead1 (m : Memory) (a : Word) : Option Byte :=
  if a.toNat > Config.addrMax then none else some (Memory.read m a.toNat)

/-- `MemRead(a, 2)` (R55, R53): the bound is compared without wrapping, and the byte at `a` is the high one. -/
def memRead2 (m : Memory) (a : Word) : Option Word :=
  if a.toNat + 1 > Config.addrMax then none
  else some (wordOfBytes (Memory.read m a.toNat) (Memory.read m (a.toNat + 1)))

/-- `MemWrite(a, 1, v)` (R56); `none` is OutOfRange, and nothing is written. -/
def memWrite1 (m : Memory) (a : Word) (v : Byte) : Option Memory :=
  if a.toNat > Config.addrMax then none else some (Memory.write m a.toNat v)

/-- `mem[a]` of a state (R9). -/
def State.byteAt (s : State) (a : Nat) : Byte := Memory.read s.mem a

/-- The copy of a program that fits, to 0x200 on (R58); nothing else changes (R59). -/
def storeProgram (bytes : List Byte) (s : State) : State :=
  { s with mem := Memory.writeBytes s.mem Config.programBase bytes }

/-- What an overlong load leaves (60_exceptions R205): every byte of 0x200-0xFFF at an unspecified value (log 6), all else
unchanged. -/
def scrambleProgramArea (s : State) : State :=
  { s with
    mem := Memory.writeBytes s.mem Config.programBase (Config.overflowBytes s.env.overflowDraws).toList
    env := { s.env with overflowDraws := s.env.overflowDraws + 1 } }

/-- Put an instruction word where the next fetch reads it, high byte first (R53), on a core that is running and not halted:
the model's stand-in for loading a program (log 8). -/
def placeWordAtPc (w : Word) (s : State) : State :=
  { s with
    mem := Memory.write (Memory.write s.mem s.pc.toNat (highByte w)) (s.pc.toNat + 1) (lowByte w)
    paused := false
    fault := FaultRecord.empty }

/-! ## The program counter (10_state R29, R31: modulo 2^16) -/

/-- The fetch of the instruction word at pc (40_cycle R102). -/
def fetchWord (s : State) : Option Word := memRead2 s.mem s.pc

/-- The advance after a successful fetch (40_cycle R103). -/
def advancePc (s : State) : State := { s with pc := s.pc + 2 }

/-- A taken skip: one more instruction width (42_skip). -/
def skipNext (s : State) : State := { s with pc := s.pc + 2 }

/-- Overwrite pc (41_flow R130-R132). -/
def jumpTo (target : Word) (s : State) : State := { s with pc := target }

/-- `a`, the address of the instruction whose handler runs: the handler sees pc = a + 2 (10_state R28, log 7). -/
def State.insnAddr (s : State) : Word := s.pc - 2

/-! ## The call stack (10_state R34) -/

/-- Does the stack hold STACK_CAPACITY entries (41_flow R132)? -/
def State.stackFull (s : State) : Bool := s.S.length == s.env.stackCapacity

/-- `push(v)`: the new top stands at the end. -/
def push (v : Word) (s : State) : State := { s with S := s.S ++ [v] }

/-- `pop()`: the top, and the state without it; `none` on an empty stack. -/
def pop (s : State) : Option (Word × State) :=
  match s.S.getLast? with
  | none => none
  | some r => some (r, { s with S := s.S.dropLast })

/-! ## Faults and reset -/

/-- Fatal-fault entry, the one operation for every fatal fault (60_exceptions R207): the first fault sets the record, and a
record already set stays. No other state is saved or changed (R209). -/
def fatal (code : FaultCode) (word addr : Word) (s : State) : State :=
  if s.fault.code = .noFault then { s with fault := ⟨code, word, addr⟩ } else s

/-- The reset input (70_reset_and_hazards R250, R251): a new construction. There is no return from a fault but this
(60_exceptions R211). The parameters of the step are no state: the capacity stays, and the draws go on (log 10). -/
def resetCore (s : State) : State := { State.reset with env := s.env }

/-! ## The capability inputs (00_scope R10, 40_cycle R118): one call, one answer -/

/-- `KeyQuery()` (log 4). -/
def keyQuery (s : State) : KeyResult × State :=
  (Config.keyAnswer s.env.keyDraws, { s with env := { s.env with keyDraws := s.env.keyDraws + 1 } })

/-- `RandomByte()` (log 5). -/
def drawByte (s : State) : Byte × State :=
  (Config.randomByte s.env.randomDraws, { s with env := { s.env with randomDraws := s.env.randomDraws + 1 } })

end Sys2Proof.Machine
end

