-- ==== Sys2Proof/Machine/Operands.lean ====
section
/-! DEFINITION. The operand forms (30_encoding R83): a V register, an 8-bit immediate used as it is, a 12-bit address
zero-extended to 16 bits, and the address register I. No indirect, indexed or memory form exists. -/

namespace Sys2Proof.Machine

/-- `V[x]` (00_scope R8, 10_state R20). -/
def State.readV (s : State) (x : RegIx) : Byte := s.V.get x.toFin

/-- `V[x] <- v`; VF is written like any other register (10_state R21). -/
def writeV (x : RegIx) (v : Byte) (s : State) : State := { s with V := s.V.set x.toNat v x.isLt }

/-- `I <- v`; any value is legal (10_state R27). -/
def writeI (v : Word) (s : State) : State := { s with I := v }

/-- `zext_16(addr)`: the address operand (R83). -/
def zextAddr (addr : Addr12) : Word := addr.setWidth 16

/-- `zext_16(V[x])` (44_address R161). -/
def zextByte (v : Byte) : Word := v.setWidth 16

end Sys2Proof.Machine
end

