-- ==== Sys2Proof/Machine/Flags.lean ====
section
/-! DEFINITION. The core has no status flags, condition codes or predicate registers (10_state R37). What an instruction tests
is the condition of a skip, and what it computes is one of the sums and masks below; none has a side effect. -/

namespace Sys2Proof.Machine

/-- SE's condition (42_skip R140): two unsigned 8-bit values are equal. -/
def condEqual (v nn : Byte) : Bool := v == nn

/-- SNE's condition (42_skip R141). -/
def condNotEqual (v nn : Byte) : Bool := v != nn

/-- SKNP's condition (42_skip R142): the answer is not the key whose code is the whole of `v`; "none" is unequal to every
key. -/
def condKeyNotPressed (k : KeyResult) (v : Byte) : Bool := k != .key v

/-- A skip: taken when its condition holds (42_skip). -/
def skipIf (c : Bool) (s : State) : State := if c then skipNext s else s

/-- `(a + b) mod 256`, with no carry out (43_register R151). -/
def sum8 (a b : Byte) : Byte := a + b

/-- `(a + b) mod 65536`, with no overflow check (44_address R161). -/
def sum16 (a b : Word) : Word := a + b

/-- A random byte masked by an immediate (43_register R152). -/
def maskByte (r nn : Byte) : Byte := r &&& nn

end Sys2Proof.Machine
end

