-- ==== Sys2Proof/Machine/Address.lean ====
section
/-! DEFINITION. Address-register operations: LD I,addr; ADD I,Vx (44_address R160, R161). -/

namespace Sys2Proof.Machine

/-- LD I, addr (R160). -/
def execLdI (addr : Addr12) (s : State) : Host.Outcome State Fault Refusal :=
  .next (writeI (zextAddr addr) s)

/-- ADD I, Vx (R161): a 16-bit sum that wraps; VF is not written. -/
def execAddI (x : RegIx) (s : State) : Host.Outcome State Fault Refusal :=
  .next (writeI (sum16 s.I (zextByte (s.readV x))) s)

end Sys2Proof.Machine
end

