-- ==== Sys2Proof/Machine/Draw.lean ====
section
/-! DEFINITION. The draw stub (45_draw R170) and the fallback for unimplemented words (60_exceptions R202). -/

namespace Sys2Proof.Machine

/-- DRW Vx, Vy, n (R170): no operation; the cycle's only effect is the advance of pc. There is no display state (R171). -/
def execDrw (_x _y _n : BitVec 4) (s : State) : Host.Outcome State Fault Refusal :=
  .next s

/-- A word no row of the opcode map matches (R202): the fatal fault Unimplemented, with the raw word and its address. -/
def execUnimplemented (word : Word) (s : State) : Host.Outcome State Fault Refusal :=
  .next (fatal .unimplemented word s.insnAddr s)

end Sys2Proof.Machine
end

