-- ==== Sys2Proof/Machine/Flow.lean ====
section
/-! DEFINITION. Control transfer: RET, JP, CALL (41_flow R130-R132). A handler starts with pc = a + 2 (40_cycle R103) and
checks before it writes (40_cycle R105). -/

namespace Sys2Proof.Machine

/-- RET (R130): pop into pc; on an empty stack the fatal fault StackUnderflow, with the RET's word and address (R203). -/
def execRet (s : State) : Host.Outcome State Fault Refusal :=
  match pop s with
  | none => .next (fatal .stackUnderflow (encode .ret) s.insnAddr s)
  | some (target, t) => .next (jumpTo target t)

/-- JP addr (R131). -/
def execJp (addr : Addr12) (s : State) : Host.Outcome State Fault Refusal :=
  .next (jumpTo (zextAddr addr) s)

/-- CALL addr (R132): push the advanced pc and jump; on a full stack the fatal fault StackOverflow, with the CALL's word and
address (R204). -/
def execCall (addr : Addr12) (s : State) : Host.Outcome State Fault Refusal :=
  if s.stackFull then .next (fatal .stackOverflow (encode (.call addr)) s.insnAddr s)
  else .next (jumpTo (zextAddr addr) (push s.pc s))

end Sys2Proof.Machine
end

