-- ==== Sys2Proof/Machine/Register.lean ====
section
/-! DEFINITION. Register operations: LD Vx,nn; ADD Vx,nn; RND (43_register R150-R152). -/

namespace Sys2Proof.Machine

/-- LD Vx, nn (R150). -/
def execLdV (x : RegIx) (nn : Byte) (s : State) : Host.Outcome State Fault Refusal :=
  .next (writeV x nn s)

/-- ADD Vx, nn (R151): wraps, and writes no carry. -/
def execAddV (x : RegIx) (nn : Byte) (s : State) : Host.Outcome State Fault Refusal :=
  .next (writeV x (sum8 (s.readV x) nn) s)

/-- RND Vx, nn with the byte `r` it draws (R152). -/
def rndWith (r : Byte) (x : RegIx) (nn : Byte) (s : State) : State :=
  writeV x (maskByte r nn) s

/-- RND Vx, nn (R152): exactly one draw, whatever `nn` is (40_cycle R118). -/
def execRnd (x : RegIx) (nn : Byte) (s : State) : Host.Outcome State Fault Refusal :=
  .next (rndWith (drawByte s).1 x nn (drawByte s).2)

end Sys2Proof.Machine
end

