-- ==== Sys2Proof/Machine/Skip.lean ====
section
/-! DEFINITION. Conditional skips: SE, SNE, SKNP (42_skip R140-R142). The skipped word is never fetched (40_cycle R106). -/

namespace Sys2Proof.Machine

/-- SE Vx, nn (R140). -/
def execSe (x : RegIx) (nn : Byte) (s : State) : Host.Outcome State Fault Refusal :=
  .next (skipIf (condEqual (s.readV x) nn) s)

/-- SNE Vx, nn (R141). -/
def execSne (x : RegIx) (nn : Byte) (s : State) : Host.Outcome State Fault Refusal :=
  .next (skipIf (condNotEqual (s.readV x) nn) s)

/-- SKNP Vx with the answer `k` of its key query (R142). -/
def sknpWith (k : KeyResult) (x : RegIx) (s : State) : State :=
  skipIf (condKeyNotPressed k (s.readV x)) s

/-- SKNP Vx (R142): exactly one key query (40_cycle R118). -/
def execSknp (x : RegIx) (s : State) : Host.Outcome State Fault Refusal :=
  .next (sknpWith (keyQuery s).1 x (keyQuery s).2)

end Sys2Proof.Machine
end

