-- ==== Sys2Proof/Machine/Cycle.lean ====
section
/-! DEFINITION. The instruction cycle (40_cycle R101-R104) and one clock of the core (R107). -/

namespace Sys2Proof.Machine

/-- The code of FetchError (60_exceptions R200, the spec's decision D6): it stands in a result only, and no fault record holds it
(10_state R39), so it is no `FaultCode`. -/
def fetchErrorNumber : BitVec 3 := 1

/-- The code of the failure a step reports (60_exceptions R200): that of FetchError, or the code of the record. -/
def Fault.number : Fault → BitVec 3
  | .fetchError _ => fetchErrorNumber
  | .halted record => record.code.number

/-- `cycle()` (R101): fetch, advance pc, decode, dispatch. A fetch outside memory raises FetchError and changes nothing
(R102). -/
def cycle (s : State) : Host.Outcome State Fault Refusal :=
  match fetchWord s with
  | none => .fault (.fetchError s.pc)
  | some w => exec (decode w) (advancePc s)

/-- What one `clock()` (R107) makes of the state: nothing while paused; on a halted core the record is reported and nothing
changes (60_exceptions R208); otherwise one cycle. Paused is tested first. -/
def clockOutcome (s : State) : Host.Outcome State Fault Refusal :=
  if s.paused then .next s
  else if s.halted then .fault (.halted s.fault)
  else cycle s

end Sys2Proof.Machine
end

