-- ==== Sys2Proof/Machine/Step.lean ====
section
/-! DEFINITION. One step of the machine: one `clock()` (40_cycle R107, 70_reset_and_hazards R257; log 1). -/

namespace Sys2Proof.Machine

/-- One clock of the core. -/
def step (s : State) : Host.Outcome State Fault Refusal := clockOutcome s

/-- The state with an instruction of spec/opcode_table.json where the next fetch reads it (log 8). -/
def State.withFetchWord (s : State) (nbits w : Nat) : State := placeWordAtPc (tableWord nbits w) s

end Sys2Proof.Machine
end

