-- ==== Sys2Proof/Machine/HostOps.lean ====
section
/-! DEFINITION. The host interface (40_cycle R100): every operation as one atomic transaction, with its result. -/

namespace Sys2Proof.Machine

/-- The operations the host can apply to the block, with their arguments (R100). -/
inductive HostOp where
  /-- Construction, or the reset input (70_reset_and_hazards R250, R251). The capabilities it binds answer freely (log 12). -/
  | reset
  /-- `load(bytes)` (20_memory R58). -/
  | load (bytes : List Byte)
  /-- `load_file(path)` (R121): what the host's file system answers, the contents or `none` for a file it cannot read
  (log 11). -/
  | loadFile (contents : Option (List Byte))
  /-- `clock()` (R107). -/
  | clock
  /-- `step()` (R108). -/
  | step
  /-- `pause()` (R109). -/
  | pause
  /-- `unpause()` (R110). -/
  | unpause
  /-- `toggle_pause()` (R111). -/
  | togglePause
  /-- `instruction_pointer()` (R113). -/
  | instructionPointer
  /-- `read_memory(addr)` (20_memory R61). -/
  | readMemory (addr : Word)
  /-- `read_register(r)` (R113); the host may name any index. -/
  | readRegister (r : Nat)
  /-- `write_register(r, value)` (R113). -/
  | writeRegister (r : Nat) (value : Byte)
  /-- `read_address_register()` (R113). -/
  | readAddressRegister
  /-- `write_address_register(value)` (R113). -/
  | writeAddressRegister (value : Word)
deriving DecidableEq, Repr

/-- The result of an operation (R100, R115). -/
inductive HostResult where
  /-- The operation has no result. -/
  | done
  /-- Ok. -/
  | ok
  /-- FetchError(pc), recoverable (60_exceptions R201). -/
  | fetchError (pc : Word)
  /-- Fault(record), fatal (60_exceptions R207). -/
  | fault (record : FaultRecord)
  /-- IoError, recoverable (R121). -/
  | ioError
  /-- An 8-bit value. -/
  | byte (v : Byte)
  /-- A 16-bit value. -/
  | word (v : Word)
  /-- For an instruction without a meaning. No operation answers it, since every instruction has its meaning. -/
  | notRun (r : Refusal)
deriving DecidableEq, Repr

/-- The two kinds of failure (60_exceptions R200). -/
inductive FailureKind where
  /-- Propagated as an error result and not stored: the host may go on. -/
  | recoverable
  /-- Stored in the fault record: the core is halted until reset. -/
  | fatal
deriving DecidableEq, Repr

/-- The kind of the failure a result reports, and `none` for a result that is no failure (60_exceptions R200). -/
def HostResult.kind : HostResult → Option FailureKind
  | .fetchError _ => some .recoverable
  | .ioError => some .recoverable
  | .fault _ => some .fatal
  | .done => none
  | .ok => none
  | .byte _ => none
  | .word _ => none
  | .notRun _ => none

/-- The code of the failure a result reports (60_exceptions R200, the spec's decision D6). The table gives IoError none, and a
result that is no failure has none. -/
def HostResult.code : HostResult → Option (BitVec 3)
  | .fetchError _ => some fetchErrorNumber
  | .fault record => some record.code.number
  | .ioError => none
  | .done => none
  | .ok => none
  | .byte _ => none
  | .word _ => none
  | .notRun _ => none

/-- A host operation that raises a fatal fault: the record, and Fault(record) as the result (60_exceptions R207). -/
def raiseFatal (code : FaultCode) (word addr : Word) (s : State) : HostResult × State :=
  (.fault (fatal code word addr s).fault, fatal code word addr s)

/-- One cycle of a core that is not halted, with the result it reports (R101, R104, R115). -/
def runCycle (s : State) : HostResult × State :=
  match cycle s with
  | .next t => if t.halted then (.fault t.fault, t) else (.ok, t)
  | .fault (.fetchError pc) => (.fetchError pc, s)
  | .fault (.halted record) => (.fault record, s)
  | .refused r => (.notRun r, s)

/-- `clock()` (R107): paused is tested first, then halted. -/
def opClock (s : State) : HostResult × State :=
  if s.paused then (.ok, s)
  else if s.halted then (.fault s.fault, s)
  else runCycle s

/-- One cycle without consulting `paused`, as `step` runs it (R108). -/
def forceCycle (s : State) : HostResult × State :=
  if s.halted then (.fault s.fault, s) else runCycle s

/-- `step()` (R108): `paused` is put back on every outcome. -/
def opStep (s : State) : HostResult × State :=
  ((forceCycle s).1, { (forceCycle s).2 with paused := s.paused })

/-- `load(bytes)` (20_memory R58, 60_exceptions R205). -/
def opLoad (bytes : List Byte) (s : State) : HostResult × State :=
  if bytes.length > Config.maxProgram then
    raiseFatal .loadOverflow 0 (BitVec.ofNat 16 Config.programBase) (scrambleProgramArea s)
  else (.ok, storeProgram bytes s)

/-- `load_file` (R121): as `load`, or IoError with no state change. -/
def opLoadFile (contents : Option (List Byte)) (s : State) : HostResult × State :=
  match contents with
  | none => (.ioError, s)
  | some bytes => opLoad bytes s

/-- `pause`, `unpause` and `toggle_pause` write the flag and nothing else (R109-R111). -/
def setPaused (b : Bool) (s : State) : State := { s with paused := b }

/-- `read_memory(addr)` (20_memory R61): out of range is BadHostIndex (60_exceptions R206). -/
def opReadMemory (addr : Word) (s : State) : HostResult × State :=
  match memRead1 s.mem addr with
  | none => raiseFatal .badHostIndex addr 0 s
  | some v => (.byte v, s)

/-- An index the host gives, as the fault record keeps it: modulo 2^16 (60_exceptions R206). -/
def indexWord (r : Nat) : Word := BitVec.ofNat 16 r

/-- `read_register(r)` (R113): an index above 15 is BadHostIndex (60_exceptions R206). -/
def opReadRegister (r : Nat) (s : State) : HostResult × State :=
  if r > 15 then raiseFatal .badHostIndex (indexWord r) 0 s
  else (.byte (s.readV (BitVec.ofNat 4 r)), s)

/-- `write_register(r, value)` (R113): an index above 15 is BadHostIndex, and no register is written. -/
def opWriteRegister (r : Nat) (value : Byte) (s : State) : HostResult × State :=
  if r > 15 then raiseFatal .badHostIndex (indexWord r) 0 s
  else (.done, writeV (BitVec.ofNat 4 r) value s)

/-- Apply a host operation: its result and the state it leaves. Every operation acts in every state (R112, R113, 60_exceptions
R208), and none is retried (R122). -/
def perform (op : HostOp) (s : State) : HostResult × State :=
  match op with
  | .reset => (.done, resetCore s)
  | .load bytes => opLoad bytes s
  | .loadFile contents => opLoadFile contents s
  | .clock => opClock s
  | .step => opStep s
  | .pause => (.done, setPaused true s)
  | .unpause => (.done, setPaused false s)
  | .togglePause => (.done, setPaused (!s.paused) s)
  | .instructionPointer => (.word s.pc, s)
  | .readMemory addr => opReadMemory addr s
  | .readRegister r => opReadRegister r s
  | .writeRegister r value => opWriteRegister r value s
  | .readAddressRegister => (.word s.I, s)
  | .writeAddressRegister value => (.done, writeI value s)

end Sys2Proof.Machine
end

