-- ==== Sys2Proof/Safety.lean ====
section
/-! DEFINITION. The terms claims use: the ends of a run (70_reset_and_hazards R256), runs of host operations, what an operation
leaves unchanged, and the invariant of the machine. -/

namespace Sys2Proof.Machine

/-! ## The ends of a run (R256) -/

/-- Stuck: not halted, and the fetch fails, so every clock (while Running) and every step returns FetchError. -/
def State.stuck (s : State) : Bool := !s.halted && fetchWord s == none

/-- Idle: not halted, and the word at pc is a jump to pc. The spec takes it as the successful end of a program (D27). -/
def State.idle (s : State) : Bool := !s.halted && fetchWord s == some (0x1000#16 ||| s.pc)

/-- How a run stands (R256). -/
inductive RunEnd where
  /-- A fatal fault was raised. Never a successful end. -/
  | halted
  /-- FetchError until reset. Not successful either. -/
  | stuck
  /-- The successful end. -/
  | idle
  /-- Anything else. -/
  | running
deriving DecidableEq, Repr

/-- The end a state is at (R256). -/
def State.runEnd (s : State) : RunEnd :=
  if s.halted then .halted
  else if s.stuck then .stuck
  else if s.idle then .idle
  else .running

/-! ## Runs -/

/-- A run from a launch state: host operations one after the other (R256, 20_memory R63), their results and the last state. -/
def runOps : List HostOp → State → List HostResult × State
  | [], s => ([], s)
  | op :: ops, s =>
    ((perform op s).1 :: (runOps ops (perform op s).2).1, (runOps ops (perform op s).2).2)

/-! ## What is left unchanged -/

/-- Every byte of memory reads as before. -/
def SameMemory (s t : State) : Prop := ∀ a : Nat, t.byteAt a = s.byteAt a

/-- Every V register reads as before. -/
def SameRegisters (s t : State) : Prop := ∀ y : RegIx, t.readV y = s.readV y

/-- Every V register but Vx reads as before. -/
def SameRegistersBut (x : RegIx) (s t : State) : Prop := ∀ y : RegIx, y ≠ x → t.readV y = s.readV y

/-- The run-state flag and the fault record are as before. -/
def SameControl (s t : State) : Prop := t.paused = s.paused ∧ t.fault = s.fault

/-! ## The invariant -/

/-- The fault record is one the table of 60_exceptions R200 allows: its word and address fit its code. -/
def FaultRecord.legal (f : FaultRecord) : Bool :=
  match f.code with
  | .noFault => f.word == 0 && f.addr == 0
  | .unimplemented => inUnimplementedSpace f.word && decide (f.addr.toNat ≤ 0xFFE)
  | .stackUnderflow => f.word == 0x00EE#16 && decide (f.addr.toNat ≤ 0xFFE)
  | .stackOverflow => fieldClass f.word == 0x2#4 && decide (f.addr.toNat ≤ 0xFFE)
  | .loadOverflow => f.word == 0 && f.addr == 0x0200#16
  | .badHostIndex => f.addr == 0

/-- The invariant: memory is in its canonical form and its bytes below 0x200 are 0x00 (20_memory R52), the stack keeps its
capacity (10_state R33), every return address is at most 0x1000 and pc at most 0x1002 (10_state R31), and the fault record is
legal (60_exceptions R200). -/
def State.Inv (s : State) : Prop :=
  Memory.wfFrom Config.programBase s.mem = true
  ∧ s.S.length ≤ s.env.stackCapacity
  ∧ (∀ r ∈ s.S, r.toNat ≤ 0x1000)
  ∧ s.pc.toNat ≤ 0x1002
  ∧ s.fault.legal = true

end Sys2Proof.Machine
end

