-- ==== Sys2Proof/Certificates/Slice0/Obligations.lean ====
section
/-! DEFINITION. The statements for the provers. In a statement about `exec`, `s` is the state the handler starts from: its pc is
the instruction's own address plus 2 (40_cycle R103), and `s.insnAddr` is that address. -/

open Sys2Proof Sys2Proof.Machine

/-! ## Reset -/

/-- 10_state R24, R26, R32, R35, 20_memory R69. -/
def Obligations.ResetZeroesTheCore : Prop :=
  (∀ a : Nat, a ≤ 0xFFF → State.reset.byteAt a = 0#8)
  ∧ (∀ x : RegIx, State.reset.readV x = 0#8)
  ∧ State.reset.I = 0x0000#16
  ∧ State.reset.pc = 0x0200#16
  ∧ State.reset.S = []

/-- 10_state R38, R40, 70_reset_and_hazards R250, R251. The reset value of `paused` (D16), the empty fault record (D5) and the
reset input (D26) are the spec's own decisions. The capacity 64 is the default of 00_scope R5; that State.reset is the core with
the default is the model's choice (log 3), and that the parameters of the step survive a reset is too (log 10). -/
def Obligations.ResetInputConstructsAnew : Prop :=
  State.reset.paused = false ∧ State.reset.fault = ⟨.noFault, 0, 0⟩ ∧ State.reset.env.stackCapacity = 64
  ∧ ∀ s : State, ∃ t, perform .reset s = (.done, t)
      ∧ t.mem = State.reset.mem ∧ t.V = State.reset.V ∧ t.I = State.reset.I ∧ t.pc = State.reset.pc
      ∧ t.S = State.reset.S ∧ t.paused = State.reset.paused ∧ t.fault = State.reset.fault ∧ t.halted = false
      ∧ t.env = s.env

/-! ## Fetch and step -/

/-- 20_memory R53. -/
def Obligations.FetchIsBigEndian : Prop :=
  ∀ s : State, s.pc.toNat ≤ 0xFFE →
    ∃ w, fetchWord s = some w
      ∧ w.toNat = (s.byteAt s.pc.toNat).toNat * 256 + (s.byteAt (s.pc.toNat + 1)).toNat

/-- 40_cycle R102, 60_exceptions R201; the spec's decision D2. That `step` reports it as a fault is the model's form (log 2). -/
def Obligations.FetchPastMemoryChangesNothing : Prop :=
  ∀ s : State, 0xFFF ≤ s.pc.toNat →
    fetchWord s = none
    ∧ (s.paused = false → s.halted = false →
        step s = .fault (.fetchError s.pc) ∧ perform .clock s = (.fetchError s.pc, s))
    ∧ (s.halted = false → perform .step s = (.fetchError s.pc, s))

/-- 40_cycle R103: the step is the decoded instruction's handler on the state whose pc alone has advanced by 2. -/
def Obligations.StepRunsTheDecodedInstruction : Prop :=
  ∀ (s : State) (i : Instr), s.paused = false → s.halted = false → s.pc.toNat ≤ 0xFFE →
    decodeBytes [s.byteAt s.pc.toNat, s.byteAt (s.pc.toNat + 1)] = .ok (i, []) →
    i.wf = true
    ∧ step s = exec i (advancePc s)
    ∧ (advancePc s).pc = s.pc + 2 ∧ (advancePc s).insnAddr = s.pc
    ∧ (advancePc s).I = s.I ∧ (advancePc s).S = s.S ∧ (advancePc s).env = s.env
    ∧ SameRegisters s (advancePc s) ∧ SameMemory s (advancePc s) ∧ SameControl s (advancePc s)

/-- 40_cycle R107, R108, R116. That a paused clock answers Ok also on a halted core (D15), that paused is kept on error outcomes
(D14), the halt (D5) and FetchError (D2) are the spec's own decisions; what `step` answers is the model's form (log 1). -/
def Obligations.ClockHonoursPauseAndStepKeepsIt : Prop :=
  ∀ s : State,
    (s.paused = true → perform .clock s = (.ok, s) ∧ step s = .next s)
    ∧ (perform .step s).2.paused = s.paused
    ∧ (∀ w, s.halted = false → fetchWord s = some w → exec (decode w) (advancePc s) = .next (perform .step s).2)
    ∧ (s.halted = true → perform .step s = (.fault s.fault, s))
    ∧ (s.halted = false → fetchWord s = none → perform .step s = (.fetchError s.pc, s))

/-- 40_cycle R108, with the spec's decision D14 for the error outcomes. For equal draws: the two operations start with equal draw
counters, and that equal counters draw equal answers is the model's choice (log 4, 5). -/
def Obligations.StepIsTheClockOfTheUnpausedCore : Prop :=
  ∀ s : State, perform .step s
    = ((perform .clock { s with paused := false }).1,
       { (perform .clock { s with paused := false }).2 with paused := s.paused })

/-- 40_cycle R107, R115, 60_exceptions R207, R208; D5, D15; the outcomes of `step` are the model's form (log 1, 2). -/
def Obligations.ClockReportsWhatTheMachineStepDoes : Prop :=
  ∀ s : State,
    (∀ t, step s = .next t →
      (perform .clock s).2 = t
      ∧ (perform .clock s).1 = if s.paused = false ∧ t.halted = true then .fault t.fault else .ok)
    ∧ (∀ pc, step s = .fault (.fetchError pc) → perform .clock s = (.fetchError pc, s))
    ∧ (∀ r, step s = .fault (.halted r) → perform .clock s = (.fault r, s))
    ∧ (∀ r, step s ≠ .refused r)

/-- 40_cycle R109, R110, R111. -/
def Obligations.PauseOperationsWriteOnlyTheFlag : Prop :=
  ∀ s : State,
    perform .pause s = (.done, { s with paused := true })
    ∧ perform .unpause s = (.done, { s with paused := false })
    ∧ perform .togglePause s = (.done, { s with paused := !s.paused })

/-! ## Control transfer -/

/-- 41_flow R130 and 60_exceptions R203: RET pops into pc; on an empty stack it raises StackUnderflow. -/
def Obligations.RetPopsOrUnderflows : Prop :=
  (∀ w : Word, decode w = .ret ↔ w = 0x00EE#16)
  ∧ (∀ (s : State) (rest : List Word) (r : Word), s.S = rest ++ [r] →
      ∃ t, exec .ret s = .next t ∧ t.pc = r ∧ t.S = rest ∧ t.I = s.I ∧ t.env = s.env
        ∧ SameRegisters s t ∧ SameMemory s t ∧ SameControl s t
        ∧ (r = 0x1000#16 → fetchWord t = none))
  ∧ (∀ s : State, s.S = [] → s.halted = false →
      ∃ t, exec .ret s = .next t ∧ t.fault = ⟨.stackUnderflow, 0x00EE#16, s.insnAddr⟩ ∧ t.halted = true
        ∧ t.pc = s.pc ∧ t.S = [] ∧ t.I = s.I ∧ t.env = s.env ∧ t.paused = s.paused
        ∧ SameRegisters s t ∧ SameMemory s t)

/-- 41_flow R131, its corner cases included. -/
def Obligations.JpJumps : Prop :=
  (∀ w : Word, w &&& 0xF000#16 = 0x1000#16 → decode w = .jp (fieldAddr w))
  ∧ ∀ (addr : Addr12) (s : State),
      ∃ t, exec (.jp addr) s = .next t ∧ t.pc.toNat = addr.toNat
        ∧ t.I = s.I ∧ t.S = s.S ∧ t.env = s.env
        ∧ SameRegisters s t ∧ SameMemory s t ∧ SameControl s t
        ∧ (s.insnAddr.toNat = addr.toNat → t = { s with pc := s.insnAddr })
        ∧ (addr = 0xFFF#12 → fetchWord t = none)
        ∧ ((∀ a : Nat, a < 0x200 → s.byteAt a = 0#8) → addr.toNat ≤ 0x1FE → fetchWord t = some 0x0000#16)

/-- 41_flow R132 where the stack has room (D4 makes the capacity a parameter; log 3 puts it in the state). -/
def Obligations.CallPushesAndJumps : Prop :=
  (∀ w : Word, w &&& 0xF000#16 = 0x2000#16 → decode w = .call (fieldAddr w))
  ∧ ∀ (addr : Addr12) (s : State), s.S.length ≠ s.env.stackCapacity →
      ∃ t, exec (.call addr) s = .next t ∧ t.S = s.S ++ [s.pc] ∧ t.pc.toNat = addr.toNat
        ∧ t.I = s.I ∧ t.env = s.env
        ∧ SameRegisters s t ∧ SameMemory s t ∧ SameControl s t

/-- 41_flow R132 and 60_exceptions R204 on a full stack; the spec's decision D4. -/
def Obligations.CallOnAFullStackOverflows : Prop :=
  ∀ (addr : Addr12) (s : State), s.S.length = s.env.stackCapacity → s.halted = false →
    ∃ t, exec (.call addr) s = .next t
      ∧ t.fault.code = .stackOverflow ∧ t.fault.word.toNat = 0x2000 + addr.toNat ∧ t.fault.addr = s.insnAddr
      ∧ t.halted = true ∧ t.pc = s.pc ∧ t.S = s.S ∧ t.I = s.I ∧ t.env = s.env ∧ t.paused = s.paused
      ∧ SameRegisters s t ∧ SameMemory s t

/-- 41_flow R133: whatever ran in between, a RET that finds the stack as the CALL left it goes back to after the CALL. -/
def Obligations.CallThenRetReturnsAfterTheCall : Prop :=
  ∀ (addr : Addr12) (s t u : State), s.S.length ≠ s.env.stackCapacity →
    exec (.call addr) s = .next t → u.S = t.S →
    ∃ v, exec .ret u = .next v ∧ v.pc = s.insnAddr + 2 ∧ v.S = s.S

/-! ## Skips -/

/-- 42_skip R140. -/
def Obligations.SeSkipsWhenEqual : Prop :=
  (∀ w : Word, w &&& 0xF000#16 = 0x3000#16 → decode w = .se (fieldX w) (fieldNN w))
  ∧ ∀ (x : RegIx) (nn : Byte) (s : State),
      ∃ t, exec (.se x nn) s = .next t
        ∧ (s.readV x = nn → t.pc = s.pc + 2) ∧ (s.readV x ≠ nn → t.pc = s.pc)
        ∧ t.I = s.I ∧ t.S = s.S ∧ t.env = s.env
        ∧ SameRegisters s t ∧ SameMemory s t ∧ SameControl s t
        ∧ (s.readV x = nn → s.insnAddr = 0x0FFE#16 → t.pc = 0x1002#16 ∧ fetchWord t = none)

/-- 42_skip R141; SE with the same operands takes the opposite branch. -/
def Obligations.SneSkipsWhenDifferent : Prop :=
  (∀ w : Word, w &&& 0xF000#16 = 0x4000#16 → decode w = .sne (fieldX w) (fieldNN w))
  ∧ ∀ (x : RegIx) (nn : Byte) (s : State),
      ∃ t u, exec (.sne x nn) s = .next t ∧ exec (.se x nn) s = .next u
        ∧ (s.readV x ≠ nn → t.pc = s.pc + 2 ∧ u.pc = s.pc) ∧ (s.readV x = nn → t.pc = s.pc ∧ u.pc = s.pc + 2)
        ∧ t.I = s.I ∧ t.S = s.S ∧ t.env = s.env
        ∧ SameRegisters s t ∧ SameMemory s t ∧ SameControl s t
        ∧ (s.readV x ≠ nn → s.insnAddr = 0x0FFE#16 → t.pc = 0x1002#16 ∧ fetchWord t = none)

/-- 42_skip R142, 40_cycle R118, with the spec's decisions D9 and D10. The answer is the free value Config.keyAnswer of the
counter `keyDraws` (log 4): the first clause says what SKNP does for every answer. -/
def Obligations.SknpSkipsUnlessTheKeyIsPressed : Prop :=
  (∀ w : Word, w &&& 0xF0FF#16 = 0xE0A1#16 → decode w = .sknp (fieldX w))
  ∧ (∀ (k : KeyResult) (x : RegIx) (s : State),
      (k = .key (s.readV x) → (sknpWith k x s).pc = s.pc) ∧ (k ≠ .key (s.readV x) → (sknpWith k x s).pc = s.pc + 2)
      ∧ (k = .noKey → (sknpWith k x s).pc = s.pc + 2))
  ∧ ∀ (x : RegIx) (s : State),
      ∃ t, exec (.sknp x) s = .next t
        ∧ t.pc = (sknpWith (Config.keyAnswer s.env.keyDraws) x s).pc
        ∧ t.env = { s.env with keyDraws := s.env.keyDraws + 1 }
        ∧ t.I = s.I ∧ t.S = s.S
        ∧ SameRegisters s t ∧ SameMemory s t ∧ SameControl s t

/-! ## Registers -/

/-- 43_register R150. -/
def Obligations.LdVLoadsTheImmediate : Prop :=
  (∀ w : Word, w &&& 0xF000#16 = 0x6000#16 → decode w = .ldV (fieldX w) (fieldNN w))
  ∧ ∀ (x : RegIx) (nn : Byte) (s : State),
      ∃ t, exec (.ldV x nn) s = .next t ∧ t.readV x = nn
        ∧ t.pc = s.pc ∧ t.I = s.I ∧ t.S = s.S ∧ t.env = s.env
        ∧ SameRegistersBut x s t ∧ SameMemory s t ∧ SameControl s t

/-- 43_register R151: the sum wraps, and nothing holds a carry; VF changes only as the destination. -/
def Obligations.AddVWrapsWithoutCarry : Prop :=
  (∀ w : Word, w &&& 0xF000#16 = 0x7000#16 → decode w = .addV (fieldX w) (fieldNN w))
  ∧ ∀ (x : RegIx) (nn : Byte) (s : State),
      ∃ t, exec (.addV x nn) s = .next t
        ∧ (t.readV x).toNat = ((s.readV x).toNat + nn.toNat) % 256
        ∧ t.pc = s.pc ∧ t.I = s.I ∧ t.S = s.S ∧ t.env = s.env
        ∧ SameRegistersBut x s t ∧ SameMemory s t ∧ SameControl s t
        ∧ (x ≠ 0xF#4 → t.readV 0xF#4 = s.readV 0xF#4)

/-- 43_register R152, 40_cycle R118, with the spec's decision D11. The byte is the free value Config.randomByte of the counter
`randomDraws` (log 5): the first clause says what RND does for every byte. -/
def Obligations.RndMasksTheDraw : Prop :=
  (∀ w : Word, w &&& 0xF000#16 = 0xC000#16 → decode w = .rnd (fieldX w) (fieldNN w))
  ∧ (∀ (r : Byte) (x : RegIx) (nn : Byte) (s : State),
      (rndWith r x nn s).readV x = r &&& nn ∧ (rndWith r x nn s).readV x &&& ~~~nn = 0#8
      ∧ (nn = 0x00#8 → (rndWith r x nn s).readV x = 0#8) ∧ (nn = 0xFF#8 → (rndWith r x nn s).readV x = r))
  ∧ ∀ (x : RegIx) (nn : Byte) (s : State),
      ∃ t, exec (.rnd x nn) s = .next t
        ∧ t.readV x = (rndWith (Config.randomByte s.env.randomDraws) x nn s).readV x
        ∧ t.env = { s.env with randomDraws := s.env.randomDraws + 1 }
        ∧ t.pc = s.pc ∧ t.I = s.I ∧ t.S = s.S
        ∧ SameRegistersBut x s t ∧ SameMemory s t ∧ SameControl s t

/-- 44_address R160. -/
def Obligations.LdILoadsTheAddress : Prop :=
  (∀ w : Word, w &&& 0xF000#16 = 0xA000#16 → decode w = .ldI (fieldAddr w))
  ∧ ∀ (addr : Addr12) (s : State),
      ∃ t, exec (.ldI addr) s = .next t
        ∧ t.I.toNat = addr.toNat ∧ t.I.toNat ≤ 0x0FFF
        ∧ t.pc = s.pc ∧ t.S = s.S ∧ t.env = s.env
        ∧ SameRegisters s t ∧ SameMemory s t ∧ SameControl s t

/-- 44_address R161; that a sum above 0xFFFF wraps is the spec's decision D8. -/
def Obligations.AddIWrapsAtSixteenBits : Prop :=
  (∀ w : Word, w &&& 0xF0FF#16 = 0xF01E#16 → decode w = .addI (fieldX w))
  ∧ ∀ (x : RegIx) (s : State),
      ∃ t, exec (.addI x) s = .next t
        ∧ t.I.toNat = (s.I.toNat + (s.readV x).toNat) % 65536
        ∧ t.pc = s.pc ∧ t.S = s.S ∧ t.env = s.env
        ∧ SameRegisters s t ∧ SameMemory s t ∧ SameControl s t

/-- 45_draw R170; that it reads nothing and asks no capability is the spec's decision D18. -/
def Obligations.DrwOnlyAdvances : Prop :=
  (∀ w : Word, w &&& 0xF000#16 = 0xD000#16 → decode w = .drw (fieldX w) (fieldY w) (fieldN w))
  ∧ ∀ (x y n : BitVec 4) (s : State), exec (.drw x y n) s = .next s

/-- 60_exceptions R202. -/
def Obligations.UnimplementedWordFaults : Prop :=
  (∀ w : Word, matchingMnemonics w = [] → decode w = .unimplemented w)
  ∧ decode 0x0000#16 = .unimplemented 0x0000#16
  ∧ ∀ (w : Word) (s : State), s.halted = false →
      ∃ t, exec (.unimplemented w) s = .next t
        ∧ t.fault = ⟨.unimplemented, w, s.insnAddr⟩ ∧ t.halted = true
        ∧ t.pc = s.pc ∧ t.I = s.I ∧ t.S = s.S ∧ t.env = s.env ∧ t.paused = s.paused
        ∧ SameRegisters s t ∧ SameMemory s t

/-! ## Rules over all instructions -/

/-- 40_cycle R105, 60_exceptions R207, R209, R210, with the spec's decisions D5 and D7: every handler answers a next state; only
three can fault, each on its one condition; and a fault writes the record and nothing else. -/
def Obligations.FaultsArePrecise : Prop :=
  ∀ (i : Instr) (s : State), s.halted = false →
    ∃ t, exec i s = .next t
      ∧ (t.halted = true ↔
          (i = .ret ∧ s.S = []) ∨ (∃ addr, i = .call addr ∧ s.S.length = s.env.stackCapacity)
            ∨ ∃ w, i = .unimplemented w)
      ∧ (t.halted = true → t = { s with fault := t.fault } ∧ t.fault.word = encode i ∧ t.fault.addr = s.insnAddr)
      ∧ (t.halted = false → t.fault = s.fault)

/-- 20_memory R50, 10_state R38: no instruction reads or writes memory or the run-state flag. The comparison of the two runs is for
equal draws: that equal counters draw equal answers is the model's choice (log 4, 5). -/
def Obligations.NoInstructionReachesMemoryOrTheRunState : Prop :=
  ∀ (i : Instr) (s : State) (m : Memory) (b : Bool),
    ∃ t, exec i s = .next t ∧ SameMemory s t ∧ t.paused = s.paused
      ∧ exec i { s with mem := m, paused := b } = .next { t with mem := m, paused := b }

/-- 10_state R21: a V register, VF included, changes only as an instruction's explicit destination. -/
def Obligations.RegistersChangeOnlyAsDestinations : Prop :=
  ∀ (i : Instr) (s t : State) (x : RegIx), exec i s = .next t → t.readV x ≠ s.readV x →
    ∃ nn, i = .ldV x nn ∨ i = .addV x nn ∨ i = .rnd x nn

/-- 10_state R29, over every instruction and every host operation. A fetch that fails is FetchError by 40_cycle R102, the spec's
decision D2, and `cycle` reports it in the model's form (log 2); a reset at any time is the spec's decision D26. -/
def Obligations.PcChangesOnlyAsListed : Prop :=
  (∀ (i : Instr) (s t : State), exec i s = .next t →
    t.pc = s.pc
    ∨ (t.pc = s.pc + 2 ∧ ∃ x, i = .sknp x ∨ ∃ nn, i = .se x nn ∨ i = .sne x nn)
    ∨ (∃ addr, (i = .jp addr ∨ i = .call addr) ∧ t.pc.toNat = addr.toNat)
    ∨ (i = .ret ∧ s.S.getLast? = some t.pc))
  ∧ (∀ s : State, (perform .reset s).2.pc = 0x0200#16 ∧ perform .instructionPointer s = (.word s.pc, s)
      ∧ (fetchWord s = none → cycle s = .fault (.fetchError s.pc))
      ∧ ∀ w, fetchWord s = some w → cycle s = exec (decode w) (advancePc s) ∧ (advancePc s).pc = s.pc + 2)
  ∧ (∀ (op : HostOp) (s : State), op ≠ .reset → op ≠ .clock → op ≠ .step → (perform op s).2.pc = s.pc)

/-- 10_state R25, R34, 00_scope R10, 40_cycle R118: who writes I, who moves the stack, who asks a capability and how often
(D9, D11; the counters are the model's, log 4, 5); nothing changes the capacity (log 3). -/
def Obligations.OtherStateChangesOnlyThroughItsInstructions : Prop :=
  ∀ (i : Instr) (s t : State), exec i s = .next t →
    (t.I ≠ s.I → (∃ addr, i = .ldI addr) ∨ ∃ x, i = .addI x)
    ∧ (t.S ≠ s.S → i = .ret ∨ ∃ addr, i = .call addr)
    ∧ ((∃ x, i = .sknp x) → t.env = { s.env with keyDraws := s.env.keyDraws + 1 })
    ∧ ((∃ x nn, i = .rnd x nn) → t.env = { s.env with randomDraws := s.env.randomDraws + 1 })
    ∧ ((∀ x, i ≠ .sknp x) → (∀ x nn, i ≠ .rnd x nn) → t.env = s.env)

/-- 10_state R25: the value of I never affects memory, pc or V; here, nor anything else but I. For equal draws: that equal counters
draw equal answers is the model's choice (log 4, 5). -/
def Obligations.TheValueOfIReachesOnlyI : Prop :=
  ∀ (s t : State) (v : Word), step s = .next t →
    ∃ t', step { s with I := v } = .next t' ∧ { t' with I := t.I } = t

/-- 40_cycle R106: a step looks at the two bytes at pc and at no other byte, so a skipped word may be anything. For equal draws:
that equal counters draw equal answers is the model's choice (log 4, 5). -/
def Obligations.StepLooksOnlyAtTheFetchedBytes : Prop :=
  ∀ (s t : State) (m : Memory),
    Memory.read m s.pc.toNat = s.byteAt s.pc.toNat → Memory.read m (s.pc.toNat + 1) = s.byteAt (s.pc.toNat + 1) →
    step s = .next t → step { s with mem := m } = .next { t with mem := m }

/-! ## The ends of a run -/

/-- 70_reset_and_hazards R256, 41_flow R131: a running core is idle exactly when a clock answers the same state; the spec takes
this as the successful end (D27). -/
def Obligations.IdleIsWhereAClockChangesNothing : Prop :=
  ∀ s : State, s.paused = false →
    (step s = .next s ↔ s.idle = true) ∧ (s.idle = true → perform .clock s = (.ok, s) ∧ perform .step s = (.ok, s))

/-- 60_exceptions R201, over any run of host operations without a reset (D2). -/
def Obligations.StuckUntilReset : Prop :=
  ∀ (ops : List HostOp) (s : State), HostOp.reset ∉ ops → fetchWord s = none →
    (runOps ops s).2.pc = s.pc ∧ fetchWord (runOps ops s).2 = none

/-- 60_exceptions R207, R208, over any run of host operations without a reset (D5, D24): the first record stays, and no
instruction runs. -/
def Obligations.HaltedUntilReset : Prop :=
  ∀ (ops : List HostOp) (s : State), HostOp.reset ∉ ops → s.halted = true →
    (runOps ops s).2.fault = s.fault ∧ (runOps ops s).2.pc = s.pc ∧ (runOps ops s).2.S = s.S
    ∧ perform .step (runOps ops s).2 = (.fault s.fault, (runOps ops s).2)
    ∧ ((runOps ops s).2.paused = false →
        perform .clock (runOps ops s).2 = (.fault s.fault, (runOps ops s).2)
        ∧ step (runOps ops s).2 = .fault (.halted s.fault))

/-! ## Loader and accessors -/

/-- 20_memory R62. -/
def Obligations.LoadThenReadMemoryRoundTrip : Prop :=
  ∀ (s t : State) (bytes : List Byte), bytes.length ≤ 3584 →
    t = (perform (.load bytes) (perform .reset s).2).2 →
    (∀ (k : Nat) (h : k < bytes.length),
      perform (.readMemory (BitVec.ofNat 16 (0x200 + k))) t = (.byte bytes[k], t))
    ∧ (∀ a : Word, a.toNat ≤ 0xFFF → (a.toNat < 0x200 ∨ 0x200 + bytes.length ≤ a.toNat) →
      perform (.readMemory a) t = (.byte 0#8, t))

/-- 20_memory R58, R59, R60 for a program that fits, in every state (D24), and the same through load_file (40_cycle R121). The
premise is the canonical form, a clause of the invariant. -/
def Obligations.LoadWritesOnlyItsBytes : Prop :=
  ∀ (s : State) (bytes : List Byte), s.mem.wf = true → bytes.length ≤ 3584 →
    ∃ t, perform (.load bytes) s = (.ok, t) ∧ perform (.loadFile (some bytes)) s = (.ok, t)
      ∧ perform (.loadFile none) s = (.ioError, s)
      ∧ (∀ (k : Nat) (h : k < bytes.length), t.byteAt (0x200 + k) = bytes[k])
      ∧ (∀ a : Nat, (a < 0x200 ∨ 0x200 + bytes.length ≤ a) → t.byteAt a = s.byteAt a)
      ∧ t.pc = s.pc ∧ t.I = s.I ∧ t.S = s.S ∧ t.env = s.env ∧ SameRegisters s t ∧ SameControl s t

/-- 20_memory R59, R60, R67: load leaves pc, and a program loaded over the bytes at pc is what the next fetch reads; that load acts
on a halted core too is the spec's decision D24. The premise on memory is the canonical form, a clause of the invariant. -/
def Obligations.LoadIsSeenByTheNextFetch : Prop :=
  ∀ (s : State) (bytes : List Byte) (k : Nat) (h : k + 1 < bytes.length), s.mem.wf = true → bytes.length ≤ 3584 →
    s.pc.toNat = 0x200 + k →
    (perform (.load bytes) s).2.pc = s.pc
    ∧ ∃ w, fetchWord (perform (.load bytes) s).2 = some w ∧ w.toNat = bytes[k].toNat * 256 + bytes[k + 1].toNat

/-- 70_reset_and_hazards R252: reset, load, clock runs the first two bytes of the program; reset and clock with no load faults
Unimplemented. -/
def Obligations.BootRunsTheFirstWordOfTheProgram : Prop :=
  ∀ s : State,
    (∀ (b0 b1 : Byte) (rest : List Byte), rest.length ≤ 3582 →
      let t := (runOps [.reset, .load (b0 :: b1 :: rest)] s).2
      step t = exec (decode (wordOfBytes b0 b1)) (advancePc t) ∧ t.pc = 0x0200#16 ∧ (advancePc t).pc = 0x0202#16)
    ∧ ∃ t, step (perform .reset s).2 = .next t ∧ t.pc = 0x0202#16
        ∧ t.fault = ⟨.unimplemented, 0x0000#16, 0x0200#16⟩

/-- 60_exceptions R205, R207, the spec's decision D12: an overlong load leaves the program area unspecified (log 6) and all else
but the record as it was. -/
def Obligations.OverlongLoadFaultsAndSparesTheRest : Prop :=
  ∀ (s : State) (bytes : List Byte), 3584 < bytes.length →
    ∃ t, perform (.load bytes) s = (.fault t.fault, t) ∧ t.halted = true
      ∧ (s.halted = false → t.fault = ⟨.loadOverflow, 0x0000#16, 0x0200#16⟩) ∧ (s.halted = true → t.fault = s.fault)
      ∧ (∀ a : Nat, (a < 0x200 ∨ 0xFFF < a) → t.byteAt a = s.byteAt a)
      ∧ t.pc = s.pc ∧ t.I = s.I ∧ t.S = s.S ∧ t.paused = s.paused ∧ SameRegisters s t

/-- 40_cycle R113, 20_memory R61 in range, in every state (D24). -/
def Obligations.AccessorsTouchOneField : Prop :=
  ∀ s : State,
    perform .instructionPointer s = (.word s.pc, s)
    ∧ perform .readAddressRegister s = (.word s.I, s)
    ∧ (∀ v, perform (.writeAddressRegister v) s = (.done, { s with I := v }))
    ∧ (∀ a : Word, a.toNat ≤ 0xFFF → perform (.readMemory a) s = (.byte (s.byteAt a.toNat), s))
    ∧ (∀ x : RegIx, perform (.readRegister x.toNat) s = (.byte (s.readV x), s))
    ∧ (∀ (x : RegIx) (v : Byte), ∃ t, perform (.writeRegister x.toNat v) s = (.done, t)
        ∧ t.readV x = v ∧ SameRegistersBut x s t ∧ SameMemory s t ∧ SameControl s t
        ∧ t.pc = s.pc ∧ t.I = s.I ∧ t.S = s.S ∧ t.env = s.env)

/-- 60_exceptions R206, R207, the spec's decision D13. -/
def Obligations.BadHostIndexFaults : Prop :=
  ∀ (s : State) (op : HostOp) (k : Nat),
    (∃ a : Word, op = .readMemory a ∧ a.toNat = k ∧ 0xFFF < k)
      ∨ (15 < k ∧ (op = .readRegister k ∨ ∃ v, op = .writeRegister k v)) →
    ∃ t, perform op s = (.fault t.fault, t) ∧ t = { s with fault := t.fault } ∧ t.halted = true
      ∧ (s.halted = false → t.fault.code = .badHostIndex ∧ t.fault.word.toNat = k % 65536 ∧ t.fault.addr = 0x0000#16)
      ∧ (s.halted = true → t.fault = s.fault)

/-! ## Encoding -/

/-- 30_encoding R85, R90: every well-formed instruction, with every operand at every value, comes back from its word. -/
def Obligations.DecodeOfEncodeIsTheInstruction : Prop :=
  ∀ i : Instr, i.wf = true → decode (encode i) = i

/-- 30_encoding R85: every word decodes to a well-formed instruction whose word it is. -/
def Obligations.EncodeOfDecodeIsTheWord : Prop :=
  ∀ w : Word, (decode w).wf = true ∧ encode (decode w) = w

/-- 30_encoding R86: the map, that no two of its rows match one word, and that a word is decoded to the row it matches. -/
def Obligations.OpcodeMapHasOneRowPerWord : Prop :=
  opcodeMap.map (fun r => (r.pattern.toNat, r.mask.toNat))
    = [(0x00EE, 0xFFFF), (0x1000, 0xF000), (0x2000, 0xF000), (0x3000, 0xF000), (0x4000, 0xF000), (0x6000, 0xF000),
       (0x7000, 0xF000), (0xA000, 0xF000), (0xC000, 0xF000), (0xD000, 0xF000), (0xE0A1, 0xF0FF), (0xF01E, 0xF0FF)]
  ∧ ∀ w : Word, (matchingMnemonics w).length ≤ 1
      ∧ matchingMnemonics w = (decode w).mnemonics
      ∧ (matchingMnemonics w = [] ↔ decode w = .unimplemented w)

/-- 30_encoding R87, R88: the words that decode to no instruction, class by class. -/
def Obligations.UnimplementedSpaceByClass : Prop :=
  ∀ w : Word, decode w = .unimplemented w ↔
    (w.toNat < 0x1000 ∧ w.toNat ≠ 0x00EE)
    ∨ (w.toNat / 0x1000 ∈ [0x5, 0x8, 0x9, 0xB])
    ∨ (w.toNat / 0x1000 = 0xE ∧ w.toNat % 0x100 ≠ 0xA1)
    ∨ (w.toNat / 0x1000 = 0xF ∧ w.toNat % 0x100 ≠ 0x1E)

/-- 30_encoding R82: the two formulations of `nn` are numerically identical. -/
def Obligations.ImmediateByXorIsTheLowByte : Prop :=
  ∀ w : Word, (nnByXor w).toNat = (fieldNN w).toNat ∧ (fieldNN w).toNat = w.toNat % 256

/-- 30_encoding R90, the word of each spelling; the spelling is the spec's decision D23. -/
def Obligations.EncoderGivesTheTableWords : Prop :=
  (∀ a : Addr12, encode (.jp a) = 0x1000#16 ||| a.setWidth 16
    ∧ encode (.call a) = 0x2000#16 ||| a.setWidth 16
    ∧ encode (.ldI a) = 0xA000#16 ||| a.setWidth 16)
  ∧ (∀ (x : RegIx) (n : Byte),
      encode (.se x n) = 0x3000#16 ||| x.setWidth 16 <<< 8 ||| n.setWidth 16
      ∧ encode (.sne x n) = 0x4000#16 ||| x.setWidth 16 <<< 8 ||| n.setWidth 16
      ∧ encode (.ldV x n) = 0x6000#16 ||| x.setWidth 16 <<< 8 ||| n.setWidth 16
      ∧ encode (.addV x n) = 0x7000#16 ||| x.setWidth 16 <<< 8 ||| n.setWidth 16
      ∧ encode (.rnd x n) = 0xC000#16 ||| x.setWidth 16 <<< 8 ||| n.setWidth 16)
  ∧ (∀ x y k : BitVec 4,
      encode (.drw x y k) = 0xD000#16 ||| x.setWidth 16 <<< 8 ||| y.setWidth 16 <<< 4 ||| k.setWidth 16)
  ∧ (∀ x : RegIx, encode (.sknp x) = 0xE0A1#16 ||| x.setWidth 16 <<< 8
      ∧ encode (.addI x) = 0xF01E#16 ||| x.setWidth 16 <<< 8)
  ∧ encode .ret = 0x00EE#16

/-- 30_encoding R81, R86: a few words written out bit by bit, one for each family. -/
def Obligations.SampleWordsDecode : Prop :=
  decode 0b0000000011101110#16 = .ret
  ∧ decode 0b0001101010111100#16 = .jp 0xABC#12
  ∧ decode 0b0011001100010010#16 = .se 3#4 0x12#8
  ∧ decode 0b0110101001011100#16 = .ldV 0xA#4 0x5C#8
  ∧ decode 0b1010001100000000#16 = .ldI 0x300#12
  ∧ decode 0b1101000100100011#16 = .drw 1#4 2#4 3#4
  ∧ decode 0b0000000111101110#16 = .unimplemented 0x01EE#16

/-! ## The invariant -/

/-- The reset state meets the invariant (10_state R43). -/
def Obligations.ResetMeetsTheInvariant : Prop := State.reset.Inv

/-- 10_state R31, R33, R36, 20_memory R52, 60_exceptions R200: a clock keeps the invariant. -/
def Obligations.ClockKeepsTheInvariant : Prop :=
  ∀ s t : State, s.Inv → step s = .next t → t.Inv

/-- 10_state R31, R33, R36, 20_memory R52, 60_exceptions R200: every host operation keeps the invariant, whatever its arguments
and whatever it answers. -/
def Obligations.HostOperationsKeepTheInvariant : Prop :=
  ∀ (op : HostOp) (s : State), s.Inv → (perform op s).2.Inv

/-- 20_memory R52, 10_state R31: from any state that meets the invariant, whatever the host does, the bytes below 0x200 read
0x00 and a fetch there reads 0x0000; pc never passes 0x1002 and its arithmetic never wraps (D17). -/
def Obligations.LowMemoryStaysZeroAndPcBounded : Prop :=
  ∀ (ops : List HostOp) (s : State), s.Inv →
    (∀ a : Nat, a < 0x200 → (runOps ops s).2.byteAt a = 0#8)
    ∧ ((runOps ops s).2.pc.toNat ≤ 0x1FE → fetchWord (runOps ops s).2 = some 0x0000#16)
    ∧ (runOps ops s).2.pc.toNat ≤ 0x1002
    ∧ ((advancePc (runOps ops s).2).pc.toNat = (runOps ops s).2.pc.toNat + 2)

/-- 20_memory R50, R64: memories in the canonical form that read alike at every address are one memory. -/
def Obligations.MemoriesThatReadAlikeAreEqual : Prop :=
  ∀ m m' : Memory, m.wf = true → m'.wf = true → (∀ a : Nat, a ≤ 0xFFF → m.read a = m'.read a) → m = m'

/-! ## The failures (60_exceptions R200; the codes are the spec's decision D6) -/

/-- 60_exceptions R200, its columns 'code', 'raised by' and 'cause', over every host operation on a core that is not halted (on a
halted one the first record answers). The codes (D6), FetchError's place (D2), the faults 4, 5 and 6 (D4, D12, D13) and the answer
of the file system (D25, log 11) are the spec's own decisions; that `Machine.step` answers failures too is the model's form
(log 1, 2). -/
def Obligations.EachFailureIsRaisedByItsCause : Prop :=
  (∀ (op : HostOp) (s : State), s.halted = false →
    let result := (perform op s).1
    let runs := op = .step ∨ (op = .clock ∧ s.paused = false)
    (result.code = some 1#3 ↔ runs ∧ 0xFFF ≤ s.pc.toNat)
    ∧ (result.code = some 2#3 ↔ runs ∧ ∃ w, fetchWord s = some w ∧ matchingMnemonics w = [])
    ∧ (result.code = some 3#3 ↔ runs ∧ fetchWord s = some 0x00EE#16 ∧ s.S = [])
    ∧ (result.code = some 4#3 ↔
        runs ∧ s.S.length = s.env.stackCapacity ∧ ∃ w, fetchWord s = some w ∧ w.toNat / 0x1000 = 2)
    ∧ (result.code = some 5#3 ↔ ∃ bytes, 3584 < bytes.length ∧ (op = .load bytes ∨ op = .loadFile (some bytes)))
    ∧ (result.code = some 6#3 ↔
        (∃ a : Word, 0xFFF < a.toNat ∧ op = .readMemory a)
          ∨ ∃ r, 15 < r ∧ (op = .readRegister r ∨ ∃ v, op = .writeRegister r v))
    ∧ (result = .ioError ↔ op = .loadFile none))
  ∧ ∀ (s : State) (f : Fault), step s = .fault f → (perform .clock s).1.code = some f.number

/-- 60_exceptions R200, its columns 'kind', 'word recorded' and 'addr recorded', with 10_state R39: FetchError and IoError are
recoverable and not stored; every other failure is fatal and leaves a record with its code, its word and its address, and no record
has the code 1. On a core that is not halted; D2, D4, D5, D6, D12, D13 and D25 are the spec's own decisions. -/
def Obligations.FailureKindsAndRecords : Prop :=
  (∀ c : FaultCode, c.number ≠ 1#3)
  ∧ ∀ (op : HostOp) (s : State), s.halted = false →
      let result := (perform op s).1
      let t := (perform op s).2
      (result.kind = some .recoverable ↔ result.code = some 1#3 ∨ result = .ioError)
      ∧ (result.kind = some .recoverable → t = s)
      ∧ (result.code = some 1#3 → result = .fetchError s.pc)
      ∧ (result.kind = some .fatal ↔ t.halted = true)
      ∧ (result.kind = some .fatal → result = .fault t.fault ∧ result.code = some t.fault.code.number)
      ∧ (result.code = some 2#3 ∨ result.code = some 3#3 ∨ result.code = some 4#3 →
          fetchWord s = some t.fault.word ∧ t.fault.addr = s.pc)
      ∧ (result.code = some 5#3 → t.fault.word = 0x0000#16 ∧ t.fault.addr = 0x0200#16)
      ∧ (result.code = some 6#3 → t.fault.addr = 0x0000#16
          ∧ (∀ a, op = .readMemory a → t.fault.word = a)
          ∧ ∀ r, (op = .readRegister r ∨ ∃ v, op = .writeRegister r v) → t.fault.word.toNat = r % 65536)
end

