-- ==== Sys2Proof/Laws/Decode.lean ====
section
/-! SUPPORT. The fields of a word as numbers, the forms of the encoder as numbers, and the masks of the opcode map as
conditions on fields. -/

namespace Sys2Proof

/-! ## Numbers -/

theorem append_toNat {m n : Nat} (a : BitVec m) (b : BitVec n) : (a ++ b).toNat = a.toNat * 2 ^ n + b.toNat := by
  rw [BitVec.toNat_append, ← Nat.shiftLeft_add_eq_or_of_lt b.isLt, Nat.shiftLeft_eq]

theorem formA_toNat (c : BitVec 4) (addr : Addr12) : (formA c addr).toNat = c.toNat * 0x1000 + addr.toNat :=
  append_toNat c addr

theorem formXN_toNat (c : BitVec 4) (x : RegIx) (nn : Byte) :
    (formXN c x nn).toNat = c.toNat * 0x1000 + x.toNat * 0x100 + nn.toNat := by
  have h : (formXN c x nn).toNat = (c ++ x).toNat * 2 ^ 8 + nn.toNat := append_toNat (c ++ x) nn
  rw [h, append_toNat]; ring

theorem formXYN_toNat (c x y n : BitVec 4) :
    (formXYN c x y n).toNat = c.toNat * 0x1000 + x.toNat * 0x100 + y.toNat * 0x10 + n.toNat := by
  have h : (formXYN c x y n).toNat = (c ++ x ++ y).toNat * 2 ^ 4 + n.toNat := append_toNat (c ++ x ++ y) n
  rw [h, append_toNat, append_toNat]; ring

theorem fieldClass_toNat (w : Word) : (fieldClass w).toNat = w.toNat / 0x1000 := by
  simp [fieldClass, Nat.shiftRight_eq_div_pow]; omega

theorem fieldX_toNat (w : Word) : (fieldX w).toNat = w.toNat / 0x100 % 0x10 := by
  simp [fieldX, Nat.shiftRight_eq_div_pow]

theorem fieldY_toNat (w : Word) : (fieldY w).toNat = w.toNat / 0x10 % 0x10 := by
  simp [fieldY, Nat.shiftRight_eq_div_pow]

theorem fieldN_toNat (w : Word) : (fieldN w).toNat = w.toNat % 0x10 := by
  simp [fieldN]

theorem fieldNN_toNat (w : Word) : (fieldNN w).toNat = w.toNat % 0x100 := by
  simp [fieldNN]

theorem fieldAddr_toNat (w : Word) : (fieldAddr w).toNat = w.toNat % 0x1000 := by
  simp [fieldAddr]

theorem wordOfBytes_toNat (hi lo : Byte) : (wordOfBytes hi lo).toNat = hi.toNat * 0x100 + lo.toNat :=
  append_toNat hi lo

/-- A word is its two bytes, the high one first (20_memory R53). -/
@[simp] theorem wordOfBytes_bytes (w : Word) : wordOfBytes (highByte w) (lowByte w) = w := by
  apply BitVec.eq_of_toNat_eq
  rw [wordOfBytes_toNat]
  simp [highByte, lowByte, Nat.shiftRight_eq_div_pow]
  omega

/-! ## The fields of each form -/

@[simp] theorem fieldClass_formA (c : BitVec 4) (addr : Addr12) : fieldClass (formA c addr) = c :=
  BitVec.extractLsb'_append_eq_left

@[simp] theorem fieldAddr_formA (c : BitVec 4) (addr : Addr12) : fieldAddr (formA c addr) = addr :=
  BitVec.extractLsb'_append_eq_right

@[simp] theorem fieldClass_formXN (c : BitVec 4) (x : RegIx) (nn : Byte) : fieldClass (formXN c x nn) = c := by
  apply BitVec.eq_of_toNat_eq; rw [fieldClass_toNat, formXN_toNat]; omega

@[simp] theorem fieldX_formXN (c : BitVec 4) (x : RegIx) (nn : Byte) : fieldX (formXN c x nn) = x := by
  apply BitVec.eq_of_toNat_eq; rw [fieldX_toNat, formXN_toNat]; omega

@[simp] theorem fieldNN_formXN (c : BitVec 4) (x : RegIx) (nn : Byte) : fieldNN (formXN c x nn) = nn := by
  apply BitVec.eq_of_toNat_eq; rw [fieldNN_toNat, formXN_toNat]; omega

@[simp] theorem fieldClass_formXYN (c x y n : BitVec 4) : fieldClass (formXYN c x y n) = c := by
  apply BitVec.eq_of_toNat_eq; rw [fieldClass_toNat, formXYN_toNat]; omega

@[simp] theorem fieldX_formXYN (c x y n : BitVec 4) : fieldX (formXYN c x y n) = x := by
  apply BitVec.eq_of_toNat_eq; rw [fieldX_toNat, formXYN_toNat]; omega

@[simp] theorem fieldY_formXYN (c x y n : BitVec 4) : fieldY (formXYN c x y n) = y := by
  apply BitVec.eq_of_toNat_eq; rw [fieldY_toNat, formXYN_toNat]; omega

@[simp] theorem fieldN_formXYN (c x y n : BitVec 4) : fieldN (formXYN c x y n) = n := by
  apply BitVec.eq_of_toNat_eq; rw [fieldN_toNat, formXYN_toNat]; omega

/-- A word of a class other than 0x0 is not RET's. -/
theorem ne_ret_of_class {w : Word} (h : fieldClass w ≠ 0x0#4) : w ≠ 0x00EE#16 := by
  rintro rfl; exact h (by decide)

/-! ## Masks as conditions on fields (30_encoding R86) -/

theorem and_classMask (w : Word) : w &&& 0xF000#16 = (fieldClass w).setWidth 16 <<< 12 := by
  ext i hi
  simp [fieldClass]
  interval_cases i <;> simp

theorem and_classLowMask (w : Word) :
    w &&& 0xF0FF#16 = (fieldClass w).setWidth 16 <<< 12 ||| (fieldNN w).setWidth 16 := by
  ext i hi
  simp [fieldClass, fieldNN]
  interval_cases i <;> simp

/-- A row that fixes the class matches the words of that class. -/
theorem and_classMask_eq_iff (w : Word) (c : BitVec 4) :
    w &&& 0xF000#16 = c.setWidth 16 <<< 12 ↔ fieldClass w = c := by
  rw [and_classMask]
  generalize fieldClass w = d
  revert c d; decide

/-- A row that fixes the class and the low byte matches the words of that class and that low byte. -/
theorem and_classLowMask_eq_iff (w : Word) (c : BitVec 4) (k : Byte) :
    w &&& 0xF0FF#16 = c.setWidth 16 <<< 12 ||| k.setWidth 16 ↔ fieldClass w = c ∧ fieldNN w = k := by
  constructor
  · intro h
    have hc := congrArg fieldClass h
    have hn := congrArg fieldNN h
    have e1 : fieldClass (w &&& 0xF0FF#16) = fieldClass w := by
      ext i hi; simp [fieldClass]; interval_cases i <;> simp
    have e2 : fieldNN (w &&& 0xF0FF#16) = fieldNN w := by
      ext i hi; simp [fieldNN]; interval_cases i <;> simp
    have e3 : fieldClass (c.setWidth 16 <<< 12 ||| k.setWidth 16) = c := by
      ext i hi; simp [fieldClass]; interval_cases i <;> simp
    have e4 : fieldNN (c.setWidth 16 <<< 12 ||| k.setWidth 16) = k := by
      ext i hi; simp [fieldNN]; interval_cases i <;> simp
    exact ⟨by rw [← e1, hc, e3], by rw [← e2, hn, e4]⟩
  · rintro ⟨rfl, rfl⟩
    exact and_classLowMask w

/-- The opcode map, row by row, as conditions on the word's fields. -/
theorem matchingMnemonics_eq (w : Word) :
    matchingMnemonics w =
      (if w = 0x00EE#16 then ["RET"] else [])
      ++ (if fieldClass w = 0x1#4 then ["JP_addr"] else [])
      ++ (if fieldClass w = 0x2#4 then ["CALL_addr"] else [])
      ++ (if fieldClass w = 0x3#4 then ["SE_Vx_nn"] else [])
      ++ (if fieldClass w = 0x4#4 then ["SNE_Vx_nn"] else [])
      ++ (if fieldClass w = 0x6#4 then ["LD_Vx_nn"] else [])
      ++ (if fieldClass w = 0x7#4 then ["ADD_Vx_nn"] else [])
      ++ (if fieldClass w = 0xA#4 then ["LD_I_addr"] else [])
      ++ (if fieldClass w = 0xC#4 then ["RND_Vx_nn"] else [])
      ++ (if fieldClass w = 0xD#4 then ["DRW"] else [])
      ++ (if fieldClass w = 0xE#4 ∧ fieldNN w = 0xA1#8 then ["SKNP_Vx"] else [])
      ++ (if fieldClass w = 0xF#4 ∧ fieldNN w = 0x1E#8 then ["ADD_I_Vx"] else []) := by
  have row : ∀ (p m : Word) (n : String) (rest : List OpcodeRow) (P : Prop) [Decidable P],
      (w &&& m = p ↔ P) →
      ((⟨n, p, m⟩ :: rest).filter (rowMatches w)).map (·.mnemonic)
        = (if P then [n] else []) ++ (rest.filter (rowMatches w)).map (·.mnemonic) := by
    intro p m n rest P _ h
    by_cases hp : P
    · simp [rowMatches, h.2 hp, hp]
    · simp [rowMatches, mt h.1 hp, hp]
  have full : w &&& 0xFFFF#16 = 0x00EE#16 ↔ w = 0x00EE#16 := by
    have e : w &&& 0xFFFF#16 = w := by ext i hi; simp; interval_cases i <;> simp
    rw [e]
  have cls : ∀ (c : BitVec 4) (p : Word), p = c.setWidth 16 <<< 12 → (w &&& 0xF000#16 = p ↔ fieldClass w = c) := by
    rintro c p rfl; exact and_classMask_eq_iff w c
  have low : ∀ (c : BitVec 4) (k : Byte) (p : Word), p = c.setWidth 16 <<< 12 ||| k.setWidth 16 →
      (w &&& 0xF0FF#16 = p ↔ fieldClass w = c ∧ fieldNN w = k) := by
    rintro c k p rfl; exact and_classLowMask_eq_iff w c k
  rw [matchingMnemonics, opcodeMap, row _ _ _ _ _ full,
    row _ _ _ _ _ (cls 0x1#4 0x1000#16 rfl),
    row _ _ _ _ _ (cls 0x2#4 0x2000#16 rfl),
    row _ _ _ _ _ (cls 0x3#4 0x3000#16 rfl),
    row _ _ _ _ _ (cls 0x4#4 0x4000#16 rfl),
    row _ _ _ _ _ (cls 0x6#4 0x6000#16 rfl),
    row _ _ _ _ _ (cls 0x7#4 0x7000#16 rfl),
    row _ _ _ _ _ (cls 0xA#4 0xA000#16 rfl),
    row _ _ _ _ _ (cls 0xC#4 0xC000#16 rfl),
    row _ _ _ _ _ (cls 0xD#4 0xD000#16 rfl),
    row _ _ _ _ _ (low 0xE#4 0xA1#8 0xE0A1#16 rfl),
    row _ _ _ _ _ (low 0xF#4 0x1E#8 0xF01E#16 rfl)]
  simp only [List.filter_nil, List.map_nil, List.append_nil, List.append_assoc]

/-! ## The unimplemented space as conditions on fields (30_encoding R87) -/

theorem inUnimplementedSpace_iff (w : Word) :
    inUnimplementedSpace w = true ↔
      (fieldClass w = 0x0#4 ∧ w ≠ 0x00EE#16) ∨ fieldClass w = 0x5#4 ∨ fieldClass w = 0x8#4 ∨ fieldClass w = 0x9#4
        ∨ fieldClass w = 0xB#4 ∨ (fieldClass w = 0xE#4 ∧ fieldNN w ≠ 0xA1#8)
        ∨ (fieldClass w = 0xF#4 ∧ fieldNN w ≠ 0x1E#8) := by
  have hw : ∀ v : Word, w = v ↔ w.toNat = v.toNat := fun v => BitVec.toNat_inj.symm
  have hc : ∀ c : BitVec 4, fieldClass w = c ↔ w.toNat / 0x1000 = c.toNat := fun c => by
    rw [← BitVec.toNat_inj, fieldClass_toNat]
  have hn : ∀ k : Byte, fieldNN w = k ↔ w.toNat % 0x100 = k.toNat := fun k => by
    rw [← BitVec.toNat_inj, fieldNN_toNat]
  simp [inUnimplementedSpace, hc, hn, hw, or_assoc]

/-! ## What the decoder answers, class by class (30_encoding R85) -/

theorem decode_ret : decode 0x00EE#16 = .ret := by simp [decode]

theorem decode_jp {w : Word} (h : fieldClass w = 0x1#4) : decode w = .jp (fieldAddr w) := by
  have h0 : w ≠ 0x00EE#16 := ne_ret_of_class (by rw [h]; decide)
  simp [decode, h0, h]

theorem decode_call {w : Word} (h : fieldClass w = 0x2#4) : decode w = .call (fieldAddr w) := by
  have h0 : w ≠ 0x00EE#16 := ne_ret_of_class (by rw [h]; decide)
  simp [decode, h0, h]

theorem decode_se {w : Word} (h : fieldClass w = 0x3#4) : decode w = .se (fieldX w) (fieldNN w) := by
  have h0 : w ≠ 0x00EE#16 := ne_ret_of_class (by rw [h]; decide)
  simp [decode, h0, h]

theorem decode_sne {w : Word} (h : fieldClass w = 0x4#4) : decode w = .sne (fieldX w) (fieldNN w) := by
  have h0 : w ≠ 0x00EE#16 := ne_ret_of_class (by rw [h]; decide)
  simp [decode, h0, h]

theorem decode_ldV {w : Word} (h : fieldClass w = 0x6#4) : decode w = .ldV (fieldX w) (fieldNN w) := by
  have h0 : w ≠ 0x00EE#16 := ne_ret_of_class (by rw [h]; decide)
  simp [decode, h0, h]

theorem decode_addV {w : Word} (h : fieldClass w = 0x7#4) : decode w = .addV (fieldX w) (fieldNN w) := by
  have h0 : w ≠ 0x00EE#16 := ne_ret_of_class (by rw [h]; decide)
  simp [decode, h0, h]

theorem decode_ldI {w : Word} (h : fieldClass w = 0xA#4) : decode w = .ldI (fieldAddr w) := by
  have h0 : w ≠ 0x00EE#16 := ne_ret_of_class (by rw [h]; decide)
  simp [decode, h0, h]

theorem decode_rnd {w : Word} (h : fieldClass w = 0xC#4) : decode w = .rnd (fieldX w) (fieldNN w) := by
  have h0 : w ≠ 0x00EE#16 := ne_ret_of_class (by rw [h]; decide)
  simp [decode, h0, h]

theorem decode_drw {w : Word} (h : fieldClass w = 0xD#4) : decode w = .drw (fieldX w) (fieldY w) (fieldN w) := by
  have h0 : w ≠ 0x00EE#16 := ne_ret_of_class (by rw [h]; decide)
  simp [decode, h0, h]

theorem decode_sknp {w : Word} (h : fieldClass w = 0xE#4) (hk : fieldNN w = 0xA1#8) : decode w = .sknp (fieldX w) := by
  have h0 : w ≠ 0x00EE#16 := ne_ret_of_class (by rw [h]; decide)
  simp [decode, h0, h, hk]

theorem decode_addI {w : Word} (h : fieldClass w = 0xF#4) (hk : fieldNN w = 0x1E#8) : decode w = .addI (fieldX w) := by
  have h0 : w ≠ 0x00EE#16 := ne_ret_of_class (by rw [h]; decide)
  simp [decode, h0, h, hk]

theorem decode_unimplemented {w : Word} (h : inUnimplementedSpace w = true) : decode w = .unimplemented w := by
  rw [inUnimplementedSpace_iff] at h
  rcases h with ⟨hc, h0⟩ | hc | hc | hc | hc | ⟨hc, hn⟩ | ⟨hc, hn⟩
  · simp [decode, h0, hc]
  all_goals
    have h0 : w ≠ 0x00EE#16 := ne_ret_of_class (by rw [hc]; decide)
    simp [decode, *]

/-- Every word is RET's, of one of the classes above, or in the unimplemented space. -/
theorem word_cases (w : Word) :
    w = 0x00EE#16 ∨ fieldClass w ∈ [0x1#4, 0x2#4, 0x3#4, 0x4#4, 0x6#4, 0x7#4, 0xA#4, 0xC#4, 0xD#4]
      ∨ (fieldClass w = 0xE#4 ∧ fieldNN w = 0xA1#8) ∨ (fieldClass w = 0xF#4 ∧ fieldNN w = 0x1E#8)
      ∨ inUnimplementedSpace w = true := by
  have all : ∀ c : BitVec 4, c ∈ [0x1#4, 0x2#4, 0x3#4, 0x4#4, 0x6#4, 0x7#4, 0xA#4, 0xC#4, 0xD#4]
      ∨ c = 0xE#4 ∨ c = 0xF#4 ∨ c = 0x0#4 ∨ c = 0x5#4 ∨ c = 0x8#4 ∨ c = 0x9#4 ∨ c = 0xB#4 := by decide
  rw [inUnimplementedSpace_iff]
  have := all (fieldClass w)
  tauto

end Sys2Proof
end

