-- ==== Sys2Proof/Laws/Memory.lean ====
section
/-! SUPPORT. Memory: reads after writes, and the canonical form that every operation keeps. -/

namespace Sys2Proof.Machine

/-! ## The canonical form -/

theorem Memory.wfFrom_nil (lo : Nat) : Memory.wfFrom lo [] = true := rfl

theorem Memory.wfFrom_cons (lo a : Nat) (v : Byte) (rest : Memory) :
    Memory.wfFrom lo ((a, v) :: rest) = true
      ↔ lo ≤ a ∧ a ≤ 0xFFF ∧ v ≠ Memory.unlisted ∧ Memory.wfFrom (a + 1) rest = true := by
  rw [Memory.wfFrom, Config.addrMax]
  simp [and_assoc]

/-- A memory whose listed addresses start at `hi` is one whose listed addresses start anywhere below. -/
theorem Memory.wfFrom_mono {lo hi : Nat} {m : Memory} (h : Memory.wfFrom hi m = true) (hle : lo ≤ hi) :
    Memory.wfFrom lo m = true := by
  cases m with
  | nil => rfl
  | cons c rest =>
    obtain ⟨a, v⟩ := c
    rw [Memory.wfFrom_cons] at h ⊢
    exact ⟨hle.trans h.1, h.2⟩

theorem Memory.wf_of_wfFrom {lo : Nat} {m : Memory} (h : Memory.wfFrom lo m = true) : m.wf = true :=
  Memory.wfFrom_mono h (Nat.zero_le _)

/-- An address below the first listed one reads as unlisted. -/
theorem Memory.read_below {lo a : Nat} {m : Memory} (h : Memory.wfFrom lo m = true) (ha : a < lo) :
    m.read a = Memory.unlisted := by
  induction m generalizing lo with
  | nil => rfl
  | cons c rest ih =>
    obtain ⟨b, u⟩ := c
    rw [Memory.wfFrom_cons] at h
    have hb : a ≠ b := by omega
    rw [Memory.read, if_neg hb]
    exact ih h.2.2.2 (by omega)

/-- An address outside 0x000-0xFFF is never listed. -/
theorem Memory.read_above {lo a : Nat} {m : Memory} (h : Memory.wfFrom lo m = true) (ha : 0xFFF < a) :
    m.read a = Memory.unlisted := by
  induction m generalizing lo with
  | nil => rfl
  | cons c rest ih =>
    obtain ⟨b, u⟩ := c
    rw [Memory.wfFrom_cons] at h
    have hb : a ≠ b := by omega
    rw [Memory.read, if_neg hb]
    exact ih h.2.2.2

/-- A write inside the address space keeps the canonical form. -/
theorem Memory.wfFrom_write {lo a : Nat} {m : Memory} (v : Byte) (h : Memory.wfFrom lo m = true) (hlo : lo ≤ a)
    (hhi : a ≤ 0xFFF) : Memory.wfFrom lo (m.write a v) = true := by
  induction m generalizing lo with
  | nil =>
    rw [Memory.write]
    split
    · rfl
    · rename_i hv
      rw [Memory.wfFrom_cons]
      exact ⟨hlo, hhi, hv, rfl⟩
  | cons c rest ih =>
    obtain ⟨b, u⟩ := c
    have hc := (Memory.wfFrom_cons _ _ _ _).1 h
    rw [Memory.write]
    split
    · rename_i hab
      split
      · exact h
      · rename_i hv
        rw [Memory.wfFrom_cons, Memory.wfFrom_cons]
        exact ⟨hlo, hhi, hv, hab, hc.2⟩
    · split
      · rename_i hab
        subst hab
        split
        · exact Memory.wfFrom_mono hc.2.2.2 (by omega)
        · rename_i hv
          rw [Memory.wfFrom_cons]
          exact ⟨hlo, hhi, hv, hc.2.2.2⟩
      · rw [Memory.wfFrom_cons]
        exact ⟨hc.1, hc.2.1, hc.2.2.1, ih hc.2.2.2 (by omega)⟩

/-- A string of writes inside the address space keeps the canonical form. -/
theorem Memory.wfFrom_writeBytes {lo a : Nat} {m : Memory} (bytes : List Byte) (h : Memory.wfFrom lo m = true)
    (hlo : lo ≤ a) (hhi : a + bytes.length ≤ 0x1000) : Memory.wfFrom lo (m.writeBytes a bytes) = true := by
  induction bytes generalizing m a with
  | nil => exact h
  | cons v vs ih =>
    simp only [List.length_cons] at hhi
    exact ih (Memory.wfFrom_write v h hlo (by omega)) (by omega) (by omega)

/-! ## Reads after writes -/

/-- A write gives its address the value written. -/
theorem Memory.read_write_same {lo : Nat} {m : Memory} (a : Nat) (v : Byte) (h : Memory.wfFrom lo m = true) :
    (m.write a v).read a = v := by
  induction m generalizing lo with
  | nil =>
    rw [Memory.write]
    split
    · rename_i hv; simp [Memory.read, hv]
    · simp [Memory.read]
  | cons c rest ih =>
    obtain ⟨b, u⟩ := c
    have hc := (Memory.wfFrom_cons _ _ _ _).1 h
    rw [Memory.write]
    split
    · rename_i hab
      split
      · rename_i hv
        rw [hv, Memory.read, if_neg (by omega)]
        exact Memory.read_below hc.2.2.2 (by omega)
      · simp [Memory.read]
    · split
      · rename_i hab
        subst hab
        split
        · rename_i hv
          rw [hv]
          exact Memory.read_below hc.2.2.2 (by omega)
        · simp [Memory.read]
      · rename_i hne
        rw [Memory.read, if_neg hne]
        exact ih hc.2.2.2

/-- A write leaves every other address alone. -/
theorem Memory.read_write_ne {a c : Nat} (m : Memory) (v : Byte) (hne : c ≠ a) : (m.write a v).read c = m.read c := by
  induction m with
  | nil =>
    rw [Memory.write]
    split
    · rfl
    · simp [Memory.read, hne]
  | cons p rest ih =>
    obtain ⟨b, u⟩ := p
    rw [Memory.write]
    split
    · split
      · rfl
      · rw [Memory.read, if_neg hne]
    · split
      · rename_i hab
        subst hab
        split <;> simp [Memory.read, hne]
      · simp only [Memory.read]
        split
        · rfl
        · exact ih

/-- What a string of writes leaves at any address: the byte of the string that stands there, or what stood there before. -/
theorem Memory.read_writeBytes {lo a : Nat} {m : Memory} (bytes : List Byte) (c : Nat)
    (h : Memory.wfFrom lo m = true) (hlo : lo ≤ a) (hhi : a + bytes.length ≤ 0x1000) :
    (m.writeBytes a bytes).read c
      = if a ≤ c then (bytes[c - a]?).getD (m.read c) else m.read c := by
  induction bytes generalizing m a with
  | nil => simp [Memory.writeBytes]
  | cons v vs ih =>
    simp only [List.length_cons] at hhi
    rw [Memory.writeBytes, ih (Memory.wfFrom_write v h hlo (by omega)) (by omega) (by omega)]
    by_cases hca : c = a
    · subst hca
      rw [if_neg (by omega), if_pos le_rfl, Memory.read_write_same _ _ h]
      simp
    · rw [Memory.read_write_ne _ _ hca]
      by_cases hac : a ≤ c
      · obtain ⟨k, rfl⟩ : ∃ k, c = a + 1 + k := ⟨c - (a + 1), by omega⟩
        rw [if_pos (by omega), if_pos hac]
        have h1 : a + 1 + k - (a + 1) = k := by omega
        have h2 : a + 1 + k - a = k + 1 := by omega
        rw [h1, h2, List.getElem?_cons_succ]
      · rw [if_neg (by omega), if_neg hac]

/-- A string of writes leaves every address outside it alone, whatever the memory. -/
theorem Memory.read_writeBytes_ne (m : Memory) {a c : Nat} (bytes : List Byte) (h : c < a ∨ a + bytes.length ≤ c) :
    (m.writeBytes a bytes).read c = m.read c := by
  induction bytes generalizing m a with
  | nil => rfl
  | cons b bs ih =>
    simp only [List.length_cons] at h
    rw [Memory.writeBytes, ih _ (by omega), Memory.read_write_ne _ _ (by omega)]

/-! ## The primitives of 20_memory R55, R56 -/

/-- All that `MemRead(a, 1)` can answer. -/
theorem memRead1_cases (m : Memory) (a : Word) :
    (0xFFF < a.toNat ∧ memRead1 m a = none) ∨ (a.toNat ≤ 0xFFF ∧ memRead1 m a = some (m.read a.toNat)) := by
  unfold memRead1 Config.addrMax
  split
  · exact .inl ⟨by omega, rfl⟩
  · exact .inr ⟨by omega, rfl⟩

/-- All that `MemRead(a, 2)` can answer. -/
theorem memRead2_cases (m : Memory) (a : Word) :
    (0xFFF ≤ a.toNat ∧ memRead2 m a = none)
      ∨ (a.toNat ≤ 0xFFE ∧ memRead2 m a = some (wordOfBytes (m.read a.toNat) (m.read (a.toNat + 1)))) := by
  unfold memRead2 Config.addrMax
  split
  · exact .inl ⟨by omega, rfl⟩
  · exact .inr ⟨by omega, rfl⟩

/-- All that `MemWrite(a, 1, v)` can do; a write it makes keeps the canonical form. -/
theorem memWrite1_cases (m : Memory) (a : Word) (v : Byte) :
    (0xFFF < a.toNat ∧ memWrite1 m a v = none) ∨ (a.toNat ≤ 0xFFF ∧ memWrite1 m a v = some (m.write a.toNat v)) := by
  unfold memWrite1 Config.addrMax
  split
  · exact .inl ⟨by omega, rfl⟩
  · exact .inr ⟨by omega, rfl⟩

theorem memWrite1_keeps_wf {m m' : Memory} {a : Word} {v : Byte} (h : m.wf = true) (hw : memWrite1 m a v = some m') :
    m'.wf = true := by
  obtain ⟨-, hn⟩ | ⟨ha, hs⟩ := memWrite1_cases m a v
  · simp [hn] at hw
  · rw [hs, Option.some.injEq] at hw
    exact hw ▸ Memory.wfFrom_write v h (Nat.zero_le _) ha

/-- A program that fits keeps the canonical form and writes nothing below 0x200 (20_memory R52, R58). -/
theorem storeProgram_keeps_wf {s : State} (bytes : List Byte) (hl : bytes.length ≤ Config.maxProgram)
    (h : Memory.wfFrom Config.programBase s.mem = true) :
    Memory.wfFrom Config.programBase (storeProgram bytes s).mem = true :=
  Memory.wfFrom_writeBytes bytes h le_rfl (by simp only [Config.maxProgram, Config.programBase] at *; omega)

/-- An overlong load keeps the canonical form and writes nothing below 0x200 (60_exceptions R205). -/
theorem scrambleProgramArea_keeps_wf {s : State} (h : Memory.wfFrom Config.programBase s.mem = true) :
    Memory.wfFrom Config.programBase (scrambleProgramArea s).mem = true :=
  Memory.wfFrom_writeBytes _ h le_rfl (by rw [Vector.length_toList, Config.programBase])

/-- Placing a word at a pc that can be fetched keeps the canonical form. -/
theorem placeWordAtPc_keeps_wf {s : State} (w : Word) (h : s.mem.wf = true) (hpc : s.pc.toNat ≤ 0xFFE) :
    (placeWordAtPc w s).mem.wf = true :=
  Memory.wfFrom_write _ (Memory.wfFrom_write _ h (Nat.zero_le _) (by omega)) (Nat.zero_le _) (by omega)

theorem reset_mem_wf : State.reset.mem.wf = true := rfl

end Sys2Proof.Machine
end

