-- ==== Sys2Proof/Laws/State.lean ====
section
/-! SUPPORT. One lemma per field per update, so that no proof unfolds a record update. The name of a lemma is the operation's
and the field's. -/

namespace Sys2Proof.Machine

variable (s : State)

/-! ### advancePc -/

@[simp] theorem advancePc_mem : (advancePc s).mem = s.mem := rfl
@[simp] theorem advancePc_V : (advancePc s).V = s.V := rfl
@[simp] theorem advancePc_I : (advancePc s).I = s.I := rfl
@[simp] theorem advancePc_pc : (advancePc s).pc = s.pc + 2 := rfl
@[simp] theorem advancePc_S : (advancePc s).S = s.S := rfl
@[simp] theorem advancePc_paused : (advancePc s).paused = s.paused := rfl
@[simp] theorem advancePc_fault : (advancePc s).fault = s.fault := rfl
@[simp] theorem advancePc_env : (advancePc s).env = s.env := rfl
@[simp] theorem advancePc_readV (y : RegIx) : (advancePc s).readV y = s.readV y := rfl
@[simp] theorem advancePc_byteAt (a : Nat) : (advancePc s).byteAt a = s.byteAt a := rfl
@[simp] theorem advancePc_halted : (advancePc s).halted = s.halted := rfl

/-! ### skipNext -/

@[simp] theorem skipNext_mem : (skipNext s).mem = s.mem := rfl
@[simp] theorem skipNext_V : (skipNext s).V = s.V := rfl
@[simp] theorem skipNext_I : (skipNext s).I = s.I := rfl
@[simp] theorem skipNext_pc : (skipNext s).pc = s.pc + 2 := rfl
@[simp] theorem skipNext_S : (skipNext s).S = s.S := rfl
@[simp] theorem skipNext_paused : (skipNext s).paused = s.paused := rfl
@[simp] theorem skipNext_fault : (skipNext s).fault = s.fault := rfl
@[simp] theorem skipNext_env : (skipNext s).env = s.env := rfl
@[simp] theorem skipNext_readV (y : RegIx) : (skipNext s).readV y = s.readV y := rfl
@[simp] theorem skipNext_byteAt (a : Nat) : (skipNext s).byteAt a = s.byteAt a := rfl
@[simp] theorem skipNext_halted : (skipNext s).halted = s.halted := rfl

/-! ### jumpTo -/

@[simp] theorem jumpTo_mem (target : Word) : (jumpTo target s).mem = s.mem := rfl
@[simp] theorem jumpTo_V (target : Word) : (jumpTo target s).V = s.V := rfl
@[simp] theorem jumpTo_I (target : Word) : (jumpTo target s).I = s.I := rfl
@[simp] theorem jumpTo_pc (target : Word) : (jumpTo target s).pc = target := rfl
@[simp] theorem jumpTo_S (target : Word) : (jumpTo target s).S = s.S := rfl
@[simp] theorem jumpTo_paused (target : Word) : (jumpTo target s).paused = s.paused := rfl
@[simp] theorem jumpTo_fault (target : Word) : (jumpTo target s).fault = s.fault := rfl
@[simp] theorem jumpTo_env (target : Word) : (jumpTo target s).env = s.env := rfl
@[simp] theorem jumpTo_readV (target : Word) (y : RegIx) : (jumpTo target s).readV y = s.readV y := rfl
@[simp] theorem jumpTo_byteAt (target : Word) (a : Nat) : (jumpTo target s).byteAt a = s.byteAt a := rfl
@[simp] theorem jumpTo_halted (target : Word) : (jumpTo target s).halted = s.halted := rfl

/-! ### push -/

@[simp] theorem push_mem (v : Word) : (push v s).mem = s.mem := rfl
@[simp] theorem push_V (v : Word) : (push v s).V = s.V := rfl
@[simp] theorem push_I (v : Word) : (push v s).I = s.I := rfl
@[simp] theorem push_pc (v : Word) : (push v s).pc = s.pc := rfl
@[simp] theorem push_S (v : Word) : (push v s).S = s.S ++ [v] := rfl
@[simp] theorem push_paused (v : Word) : (push v s).paused = s.paused := rfl
@[simp] theorem push_fault (v : Word) : (push v s).fault = s.fault := rfl
@[simp] theorem push_env (v : Word) : (push v s).env = s.env := rfl
@[simp] theorem push_readV (v : Word) (y : RegIx) : (push v s).readV y = s.readV y := rfl
@[simp] theorem push_byteAt (v : Word) (a : Nat) : (push v s).byteAt a = s.byteAt a := rfl
@[simp] theorem push_halted (v : Word) : (push v s).halted = s.halted := rfl

/-! ### writeV -/

@[simp] theorem writeV_mem (x : RegIx) (v : Byte) : (writeV x v s).mem = s.mem := rfl
@[simp] theorem writeV_V (x : RegIx) (v : Byte) : (writeV x v s).V = s.V.set x.toNat v x.isLt := rfl
@[simp] theorem writeV_I (x : RegIx) (v : Byte) : (writeV x v s).I = s.I := rfl
@[simp] theorem writeV_pc (x : RegIx) (v : Byte) : (writeV x v s).pc = s.pc := rfl
@[simp] theorem writeV_S (x : RegIx) (v : Byte) : (writeV x v s).S = s.S := rfl
@[simp] theorem writeV_paused (x : RegIx) (v : Byte) : (writeV x v s).paused = s.paused := rfl
@[simp] theorem writeV_fault (x : RegIx) (v : Byte) : (writeV x v s).fault = s.fault := rfl
@[simp] theorem writeV_env (x : RegIx) (v : Byte) : (writeV x v s).env = s.env := rfl
@[simp] theorem writeV_byteAt (x : RegIx) (v : Byte) (a : Nat) : (writeV x v s).byteAt a = s.byteAt a := rfl
@[simp] theorem writeV_halted (x : RegIx) (v : Byte) : (writeV x v s).halted = s.halted := rfl

/-! ### writeI -/

@[simp] theorem writeI_mem (v : Word) : (writeI v s).mem = s.mem := rfl
@[simp] theorem writeI_V (v : Word) : (writeI v s).V = s.V := rfl
@[simp] theorem writeI_I (v : Word) : (writeI v s).I = v := rfl
@[simp] theorem writeI_pc (v : Word) : (writeI v s).pc = s.pc := rfl
@[simp] theorem writeI_S (v : Word) : (writeI v s).S = s.S := rfl
@[simp] theorem writeI_paused (v : Word) : (writeI v s).paused = s.paused := rfl
@[simp] theorem writeI_fault (v : Word) : (writeI v s).fault = s.fault := rfl
@[simp] theorem writeI_env (v : Word) : (writeI v s).env = s.env := rfl
@[simp] theorem writeI_readV (v : Word) (y : RegIx) : (writeI v s).readV y = s.readV y := rfl
@[simp] theorem writeI_byteAt (v : Word) (a : Nat) : (writeI v s).byteAt a = s.byteAt a := rfl
@[simp] theorem writeI_halted (v : Word) : (writeI v s).halted = s.halted := rfl

/-! ### setPaused -/

@[simp] theorem setPaused_mem (b : Bool) : (setPaused b s).mem = s.mem := rfl
@[simp] theorem setPaused_V (b : Bool) : (setPaused b s).V = s.V := rfl
@[simp] theorem setPaused_I (b : Bool) : (setPaused b s).I = s.I := rfl
@[simp] theorem setPaused_pc (b : Bool) : (setPaused b s).pc = s.pc := rfl
@[simp] theorem setPaused_S (b : Bool) : (setPaused b s).S = s.S := rfl
@[simp] theorem setPaused_paused (b : Bool) : (setPaused b s).paused = b := rfl
@[simp] theorem setPaused_fault (b : Bool) : (setPaused b s).fault = s.fault := rfl
@[simp] theorem setPaused_env (b : Bool) : (setPaused b s).env = s.env := rfl
@[simp] theorem setPaused_readV (b : Bool) (y : RegIx) : (setPaused b s).readV y = s.readV y := rfl
@[simp] theorem setPaused_byteAt (b : Bool) (a : Nat) : (setPaused b s).byteAt a = s.byteAt a := rfl
@[simp] theorem setPaused_halted (b : Bool) : (setPaused b s).halted = s.halted := rfl

/-! ### storeProgram -/

@[simp] theorem storeProgram_mem (bytes : List Byte) : (storeProgram bytes s).mem = Memory.writeBytes s.mem Config.programBase bytes := rfl
@[simp] theorem storeProgram_V (bytes : List Byte) : (storeProgram bytes s).V = s.V := rfl
@[simp] theorem storeProgram_I (bytes : List Byte) : (storeProgram bytes s).I = s.I := rfl
@[simp] theorem storeProgram_pc (bytes : List Byte) : (storeProgram bytes s).pc = s.pc := rfl
@[simp] theorem storeProgram_S (bytes : List Byte) : (storeProgram bytes s).S = s.S := rfl
@[simp] theorem storeProgram_paused (bytes : List Byte) : (storeProgram bytes s).paused = s.paused := rfl
@[simp] theorem storeProgram_fault (bytes : List Byte) : (storeProgram bytes s).fault = s.fault := rfl
@[simp] theorem storeProgram_env (bytes : List Byte) : (storeProgram bytes s).env = s.env := rfl
@[simp] theorem storeProgram_readV (bytes : List Byte) (y : RegIx) : (storeProgram bytes s).readV y = s.readV y := rfl
@[simp] theorem storeProgram_halted (bytes : List Byte) : (storeProgram bytes s).halted = s.halted := rfl

/-! ### resetCore -/

@[simp] theorem resetCore_mem : (resetCore s).mem = [] := rfl
@[simp] theorem resetCore_V : (resetCore s).V = Vector.replicate 16 0 := rfl
@[simp] theorem resetCore_I : (resetCore s).I = 0 := rfl
@[simp] theorem resetCore_pc : (resetCore s).pc = 0x0200#16 := rfl
@[simp] theorem resetCore_S : (resetCore s).S = [] := rfl
@[simp] theorem resetCore_paused : (resetCore s).paused = false := rfl
@[simp] theorem resetCore_fault : (resetCore s).fault = FaultRecord.empty := rfl
@[simp] theorem resetCore_env : (resetCore s).env = s.env := rfl

/-! ### scrambleProgramArea -/

@[simp] theorem scrambleProgramArea_mem : (scrambleProgramArea s).mem = Memory.writeBytes s.mem Config.programBase (Config.overflowBytes s.env.overflowDraws).toList := rfl
@[simp] theorem scrambleProgramArea_V : (scrambleProgramArea s).V = s.V := rfl
@[simp] theorem scrambleProgramArea_I : (scrambleProgramArea s).I = s.I := rfl
@[simp] theorem scrambleProgramArea_pc : (scrambleProgramArea s).pc = s.pc := rfl
@[simp] theorem scrambleProgramArea_S : (scrambleProgramArea s).S = s.S := rfl
@[simp] theorem scrambleProgramArea_paused : (scrambleProgramArea s).paused = s.paused := rfl
@[simp] theorem scrambleProgramArea_fault : (scrambleProgramArea s).fault = s.fault := rfl
@[simp] theorem scrambleProgramArea_env : (scrambleProgramArea s).env = { s.env with overflowDraws := s.env.overflowDraws + 1 } := rfl
@[simp] theorem scrambleProgramArea_readV (y : RegIx) : (scrambleProgramArea s).readV y = s.readV y := rfl
@[simp] theorem scrambleProgramArea_halted : (scrambleProgramArea s).halted = s.halted := rfl

/-! ### placeWordAtPc -/

@[simp] theorem placeWordAtPc_mem (w : Word) : (placeWordAtPc w s).mem = Memory.write (Memory.write s.mem s.pc.toNat (highByte w)) (s.pc.toNat + 1) (lowByte w) := rfl
@[simp] theorem placeWordAtPc_V (w : Word) : (placeWordAtPc w s).V = s.V := rfl
@[simp] theorem placeWordAtPc_I (w : Word) : (placeWordAtPc w s).I = s.I := rfl
@[simp] theorem placeWordAtPc_pc (w : Word) : (placeWordAtPc w s).pc = s.pc := rfl
@[simp] theorem placeWordAtPc_S (w : Word) : (placeWordAtPc w s).S = s.S := rfl
@[simp] theorem placeWordAtPc_paused (w : Word) : (placeWordAtPc w s).paused = false := rfl
@[simp] theorem placeWordAtPc_fault (w : Word) : (placeWordAtPc w s).fault = FaultRecord.empty := rfl
@[simp] theorem placeWordAtPc_env (w : Word) : (placeWordAtPc w s).env = s.env := rfl
@[simp] theorem placeWordAtPc_readV (w : Word) (y : RegIx) : (placeWordAtPc w s).readV y = s.readV y := rfl

/-! ### keyQuery -/

@[simp] theorem keyQuery_mem : (keyQuery s).2.mem = s.mem := rfl
@[simp] theorem keyQuery_V : (keyQuery s).2.V = s.V := rfl
@[simp] theorem keyQuery_I : (keyQuery s).2.I = s.I := rfl
@[simp] theorem keyQuery_pc : (keyQuery s).2.pc = s.pc := rfl
@[simp] theorem keyQuery_S : (keyQuery s).2.S = s.S := rfl
@[simp] theorem keyQuery_paused : (keyQuery s).2.paused = s.paused := rfl
@[simp] theorem keyQuery_fault : (keyQuery s).2.fault = s.fault := rfl
@[simp] theorem keyQuery_env : (keyQuery s).2.env = { s.env with keyDraws := s.env.keyDraws + 1 } := rfl
@[simp] theorem keyQuery_readV (y : RegIx) : (keyQuery s).2.readV y = s.readV y := rfl
@[simp] theorem keyQuery_byteAt (a : Nat) : (keyQuery s).2.byteAt a = s.byteAt a := rfl
@[simp] theorem keyQuery_halted : (keyQuery s).2.halted = s.halted := rfl

/-! ### drawByte -/

@[simp] theorem drawByte_mem : (drawByte s).2.mem = s.mem := rfl
@[simp] theorem drawByte_V : (drawByte s).2.V = s.V := rfl
@[simp] theorem drawByte_I : (drawByte s).2.I = s.I := rfl
@[simp] theorem drawByte_pc : (drawByte s).2.pc = s.pc := rfl
@[simp] theorem drawByte_S : (drawByte s).2.S = s.S := rfl
@[simp] theorem drawByte_paused : (drawByte s).2.paused = s.paused := rfl
@[simp] theorem drawByte_fault : (drawByte s).2.fault = s.fault := rfl
@[simp] theorem drawByte_env : (drawByte s).2.env = { s.env with randomDraws := s.env.randomDraws + 1 } := rfl
@[simp] theorem drawByte_readV (y : RegIx) : (drawByte s).2.readV y = s.readV y := rfl
@[simp] theorem drawByte_byteAt (a : Nat) : (drawByte s).2.byteAt a = s.byteAt a := rfl
@[simp] theorem drawByte_halted : (drawByte s).2.halted = s.halted := rfl

@[simp] theorem keyQuery_answer : (keyQuery s).1 = Config.keyAnswer s.env.keyDraws := rfl
@[simp] theorem drawByte_answer : (drawByte s).1 = Config.randomByte s.env.randomDraws := rfl

/-! ### skipIf: pc alone can change -/

@[simp] theorem skipIf_mem (c : Bool) : (skipIf c s).mem = s.mem := by cases c <;> rfl
@[simp] theorem skipIf_V (c : Bool) : (skipIf c s).V = s.V := by cases c <;> rfl
@[simp] theorem skipIf_I (c : Bool) : (skipIf c s).I = s.I := by cases c <;> rfl
@[simp] theorem skipIf_S (c : Bool) : (skipIf c s).S = s.S := by cases c <;> rfl
@[simp] theorem skipIf_paused (c : Bool) : (skipIf c s).paused = s.paused := by cases c <;> rfl
@[simp] theorem skipIf_fault (c : Bool) : (skipIf c s).fault = s.fault := by cases c <;> rfl
@[simp] theorem skipIf_env (c : Bool) : (skipIf c s).env = s.env := by cases c <;> rfl
theorem skipIf_pc (c : Bool) : (skipIf c s).pc = if c then s.pc + 2 else s.pc := by cases c <;> rfl
@[simp] theorem skipIf_readV (c : Bool) (y : RegIx) : (skipIf c s).readV y = s.readV y := by cases c <;> rfl
@[simp] theorem skipIf_byteAt (c : Bool) (a : Nat) : (skipIf c s).byteAt a = s.byteAt a := by cases c <;> rfl

/-! ### fatal: the fault record alone can change -/

variable (code : FaultCode) (word addr : Word)

@[simp] theorem fatal_mem : (fatal code word addr s).mem = s.mem := by unfold fatal; split <;> rfl
@[simp] theorem fatal_V : (fatal code word addr s).V = s.V := by unfold fatal; split <;> rfl
@[simp] theorem fatal_I : (fatal code word addr s).I = s.I := by unfold fatal; split <;> rfl
@[simp] theorem fatal_pc : (fatal code word addr s).pc = s.pc := by unfold fatal; split <;> rfl
@[simp] theorem fatal_S : (fatal code word addr s).S = s.S := by unfold fatal; split <;> rfl
@[simp] theorem fatal_paused : (fatal code word addr s).paused = s.paused := by unfold fatal; split <;> rfl
@[simp] theorem fatal_env : (fatal code word addr s).env = s.env := by unfold fatal; split <;> rfl
@[simp] theorem fatal_readV (y : RegIx) : (fatal code word addr s).readV y = s.readV y := by unfold fatal; split <;> rfl
@[simp] theorem fatal_byteAt (a : Nat) : (fatal code word addr s).byteAt a = s.byteAt a := by unfold fatal; split <;> rfl

/-- The first fatal fault sets the record (60_exceptions R207). -/
theorem fatal_of_noFault (h : s.fault.code = .noFault) :
    fatal code word addr s = { s with fault := ⟨code, word, addr⟩ } := by
  simp [fatal, h]

/-- A record already set stays (R207). -/
theorem fatal_of_fault (h : s.fault.code ≠ .noFault) : fatal code word addr s = s := by
  simp [fatal, h]

/-- Halted is "the fault record is set" (10_state R40). -/
theorem halted_eq_false_iff : s.halted = false ↔ s.fault.code = .noFault := by
  simp [State.halted]

theorem halted_eq_true_iff : s.halted = true ↔ s.fault.code ≠ .noFault := by
  simp [State.halted]

end Sys2Proof.Machine
end

