-- ==== Sys2Proof/Laws/Ops.lean ====
section
/-! SUPPORT. What each shared operation can do, said once: operands, stack, capability inputs, and the meanings that take one
of two courses. -/

namespace Sys2Proof.Machine

/-! ## Operands -/

theorem readV_writeV_same (x : RegIx) (v : Byte) (s : State) : (writeV x v s).readV x = v := by
  have e : (writeV x v s).readV x = (s.V.set x.toNat v x.isLt)[x.toNat]'x.isLt := rfl
  rw [e, Vector.getElem_set_self]

theorem readV_writeV_ne {x y : RegIx} (v : Byte) (s : State) (h : y ≠ x) : (writeV x v s).readV y = s.readV y := by
  have hn : x.toNat ≠ y.toNat := fun e => h (BitVec.toNat_inj.1 e.symm)
  have e1 : (writeV x v s).readV y = (s.V.set x.toNat v x.isLt)[y.toNat]'y.isLt := rfl
  have e2 : s.readV y = s.V[y.toNat]'y.isLt := rfl
  rw [e1, e2, Vector.getElem_set_ne _ _ hn]

/-- What any register reads after a write. -/
theorem readV_writeV (x y : RegIx) (v : Byte) (s : State) :
    (writeV x v s).readV y = if y = x then v else s.readV y := by
  split
  · rename_i h; subst h; exact readV_writeV_same _ v s
  · rename_i h; exact readV_writeV_ne v s h

/-- Register files that read alike are equal. -/
theorem V_ext {s t : State} (h : ∀ y : RegIx, t.readV y = s.readV y) : t.V = s.V := by
  apply Vector.ext
  intro i hi
  have := h (BitVec.ofNat 4 i)
  have hm : i % 16 = i := Nat.mod_eq_of_lt hi
  simpa [State.readV, Vector.get, hm] using this

theorem zextAddr_toNat (addr : Addr12) : (zextAddr addr).toNat = addr.toNat := by
  simp [zextAddr]; omega

theorem zextByte_toNat (v : Byte) : (zextByte v).toNat = v.toNat := by
  simp [zextByte]; omega

/-! ## The program counter -/

/-- The handler's pc is the instruction's address plus 2 (10_state R28). -/
@[simp] theorem insnAddr_advancePc (s : State) : (advancePc s).insnAddr = s.pc := by
  simp [State.insnAddr, advancePc]

/-- All that a fetch can answer (40_cycle R102). -/
theorem fetchWord_cases (s : State) :
    (0xFFF ≤ s.pc.toNat ∧ fetchWord s = none)
      ∨ (s.pc.toNat ≤ 0xFFE ∧ fetchWord s = some (wordOfBytes (s.byteAt s.pc.toNat) (s.byteAt (s.pc.toNat + 1)))) :=
  memRead2_cases s.mem s.pc

/-- A placed word is the word fetched, where there is room for one. -/
theorem fetchWord_placeWordAtPc {s : State} {lo : Nat} (w : Word) (h : Memory.wfFrom lo s.mem = true) (hlo : lo ≤ s.pc.toNat)
    (hpc : s.pc.toNat ≤ 0xFFE) : fetchWord (placeWordAtPc w s) = some w := by
  obtain ⟨ha, -⟩ | ⟨-, hs⟩ := fetchWord_cases (placeWordAtPc w s)
  · exact absurd ha (by simp only [placeWordAtPc]; omega)
  · have w1 := Memory.wfFrom_write (highByte w) h hlo (by omega)
    have hi : (placeWordAtPc w s).byteAt s.pc.toNat = highByte w := by
      rw [State.byteAt, placeWordAtPc, Memory.read_write_ne _ _ (by omega), Memory.read_write_same _ _ h]
    have lo' : (placeWordAtPc w s).byteAt (s.pc.toNat + 1) = lowByte w := by
      rw [State.byteAt, placeWordAtPc, Memory.read_write_same _ _ w1]
    have hp : (placeWordAtPc w s).pc = s.pc := rfl
    rw [hs, hp, hi, lo', wordOfBytes_bytes]

/-! ## The stack -/

/-- All that a pop can do (10_state R34). -/
theorem pop_cases (s : State) :
    (s.S = [] ∧ pop s = none) ∨ (∃ rest r, s.S = rest ++ [r] ∧ pop s = some (r, { s with S := rest })) := by
  rcases List.eq_nil_or_concat s.S with h | ⟨rest, r, h⟩
  · exact .inl ⟨h, by simp [pop, h]⟩
  · rw [List.concat_eq_append] at h
    exact .inr ⟨rest, r, h, by simp [pop, h]⟩

theorem stackFull_iff (s : State) : s.stackFull = true ↔ s.S.length = s.env.stackCapacity := by
  simp [State.stackFull]

/-- All that RET can do (41_flow R130). -/
theorem execRet_cases (s : State) :
    (s.S = [] ∧ execRet s = .next (fatal .stackUnderflow 0x00EE#16 s.insnAddr s))
      ∨ (∃ rest r, s.S = rest ++ [r] ∧ execRet s = .next { s with S := rest, pc := r }) := by
  obtain ⟨h, hp⟩ | ⟨rest, r, h, hp⟩ := pop_cases s
  · exact .inl ⟨h, by rw [execRet, hp]; rfl⟩
  · exact .inr ⟨rest, r, h, by rw [execRet, hp]; rfl⟩

/-- All that CALL can do (41_flow R132). -/
theorem execCall_cases (addr : Addr12) (s : State) :
    (s.S.length = s.env.stackCapacity
        ∧ execCall addr s = .next (fatal .stackOverflow (formA 0x2#4 addr) s.insnAddr s))
      ∨ (s.S.length ≠ s.env.stackCapacity
        ∧ execCall addr s = .next { s with S := s.S ++ [s.pc], pc := zextAddr addr }) := by
  unfold execCall
  split
  · rename_i h; exact .inl ⟨(stackFull_iff s).1 h, rfl⟩
  · rename_i h; exact .inr ⟨fun e => h ((stackFull_iff s).2 e), rfl⟩

end Sys2Proof.Machine
end

