-- ==== Sys2Proof/Laws/PerInstr.lean ====
section
/-! SUPPORT. Statements made per instruction, one lemma per constructor. EncodingRow: the word the encoder gives a well-formed
instruction matches that instruction's row of the opcode map and no other (30_encoding R86). -/

namespace Sys2Proof.Laws.EncodingRow

/-- The rows of the opcode map that an instruction's word matches are exactly its own. -/
def Statement (i : Instr) : Prop := i.wf = true → matchingMnemonics (encode i) = i.mnemonics

theorem ret : Statement .ret := by
  intro _; decide

theorem jp (addr : Addr12) : Statement (.jp addr) := by
  intro _
  have h : formA 0x1#4 addr ≠ 0x00EE#16 := ne_ret_of_class (by rw [fieldClass_formA]; decide)
  simp [matchingMnemonics_eq, encode, Instr.mnemonics, h]

theorem call (addr : Addr12) : Statement (.call addr) := by
  intro _
  have h : formA 0x2#4 addr ≠ 0x00EE#16 := ne_ret_of_class (by rw [fieldClass_formA]; decide)
  simp [matchingMnemonics_eq, encode, Instr.mnemonics, h]

theorem se (x : RegIx) (nn : Byte) : Statement (.se x nn) := by
  intro _
  have h : formXN 0x3#4 x nn ≠ 0x00EE#16 := ne_ret_of_class (by rw [fieldClass_formXN]; decide)
  simp [matchingMnemonics_eq, encode, Instr.mnemonics, h]

theorem sne (x : RegIx) (nn : Byte) : Statement (.sne x nn) := by
  intro _
  have h : formXN 0x4#4 x nn ≠ 0x00EE#16 := ne_ret_of_class (by rw [fieldClass_formXN]; decide)
  simp [matchingMnemonics_eq, encode, Instr.mnemonics, h]

theorem ldV (x : RegIx) (nn : Byte) : Statement (.ldV x nn) := by
  intro _
  have h : formXN 0x6#4 x nn ≠ 0x00EE#16 := ne_ret_of_class (by rw [fieldClass_formXN]; decide)
  simp [matchingMnemonics_eq, encode, Instr.mnemonics, h]

theorem addV (x : RegIx) (nn : Byte) : Statement (.addV x nn) := by
  intro _
  have h : formXN 0x7#4 x nn ≠ 0x00EE#16 := ne_ret_of_class (by rw [fieldClass_formXN]; decide)
  simp [matchingMnemonics_eq, encode, Instr.mnemonics, h]

theorem ldI (addr : Addr12) : Statement (.ldI addr) := by
  intro _
  have h : formA 0xA#4 addr ≠ 0x00EE#16 := ne_ret_of_class (by rw [fieldClass_formA]; decide)
  simp [matchingMnemonics_eq, encode, Instr.mnemonics, h]

theorem rnd (x : RegIx) (nn : Byte) : Statement (.rnd x nn) := by
  intro _
  have h : formXN 0xC#4 x nn ≠ 0x00EE#16 := ne_ret_of_class (by rw [fieldClass_formXN]; decide)
  simp [matchingMnemonics_eq, encode, Instr.mnemonics, h]

theorem drw (x y n : BitVec 4) : Statement (.drw x y n) := by
  intro _
  have h : formXYN 0xD#4 x y n ≠ 0x00EE#16 := ne_ret_of_class (by rw [fieldClass_formXYN]; decide)
  simp [matchingMnemonics_eq, encode, Instr.mnemonics, h]

theorem sknp (x : RegIx) : Statement (.sknp x) := by
  intro _
  have h : formXN 0xE#4 x 0xA1#8 ≠ 0x00EE#16 := ne_ret_of_class (by rw [fieldClass_formXN]; decide)
  simp [matchingMnemonics_eq, encode, Instr.mnemonics, h]

theorem addI (x : RegIx) : Statement (.addI x) := by
  intro _
  have h : formXN 0xF#4 x 0x1E#8 ≠ 0x00EE#16 := ne_ret_of_class (by rw [fieldClass_formXN]; decide)
  simp [matchingMnemonics_eq, encode, Instr.mnemonics, h]

theorem unimplemented (word : Word) : Statement (.unimplemented word) := by
  intro h
  rw [Instr.wf, inUnimplementedSpace_iff] at h
  rw [matchingMnemonics_eq, encode, Instr.mnemonics]
  rcases h with ⟨hc, hw⟩ | hc | hc | hc | hc | ⟨hc, hn⟩ | ⟨hc, hn⟩
  · simp [hc, hw]
  all_goals
    have hw : word ≠ 0x00EE#16 := ne_ret_of_class (by rw [hc]; decide)
    simp [*]

end Sys2Proof.Laws.EncodingRow
end

