-- ==== Sys2Proof/Laws/Step.lean ====
section
/-! SUPPORT. What a cycle, a clock and a host operation can do, said once. -/

namespace Sys2Proof.Machine

/-- Every handler answers a next state (40_cycle R104, R105). -/
theorem exec_next (i : Instr) (s : State) : ∃ t, exec i s = .next t := by
  cases i
  case ret => obtain ⟨-, h⟩ | ⟨rest, r, -, h⟩ := execRet_cases s <;> exact ⟨_, h⟩
  case call addr => obtain ⟨-, h⟩ | ⟨-, h⟩ := execCall_cases addr s <;> exact ⟨_, h⟩
  all_goals exact ⟨_, rfl⟩

/-- All that a cycle can do (40_cycle R101). -/
theorem cycle_cases (s : State) :
    (0xFFF ≤ s.pc.toNat ∧ cycle s = .fault (.fetchError s.pc))
      ∨ (∃ w, s.pc.toNat ≤ 0xFFE ∧ fetchWord s = some w ∧ cycle s = exec (decode w) (advancePc s)) := by
  obtain ⟨h, hf⟩ | ⟨h, hf⟩ := fetchWord_cases s
  · exact .inl ⟨h, by rw [cycle, hf]⟩
  · exact .inr ⟨_, h, hf, by rw [cycle, hf]⟩

/-- All that a clock can do (40_cycle R107). -/
theorem step_cases (s : State) :
    (s.paused = true ∧ step s = .next s)
      ∨ (s.paused = false ∧ s.halted = true ∧ step s = .fault (.halted s.fault))
      ∨ (s.paused = false ∧ s.halted = false ∧ step s = cycle s) := by
  unfold step clockOutcome
  cases hp : s.paused <;> cases hh : s.halted <;> simp

/-- A running core that is not halted runs the instruction it fetches. -/
theorem step_of_fetch {s : State} {w : Word} (hp : s.paused = false) (hh : s.halted = false)
    (hf : fetchWord s = some w) : step s = exec (decode w) (advancePc s) := by
  simp [step, clockOutcome, cycle, hp, hh, hf]

/-- What follows from a clock that answers a next state: nothing changed while paused, or one instruction ran. -/
theorem step_next_cases {s t : State} (h : step s = .next t) :
    (s.paused = true ∧ t = s)
      ∨ (s.paused = false ∧ s.halted = false
        ∧ ∃ w, s.pc.toNat ≤ 0xFFE ∧ fetchWord s = some w ∧ exec (decode w) (advancePc s) = .next t) := by
  obtain ⟨hp, hs⟩ | ⟨-, -, hs⟩ | ⟨hp, hh, hs⟩ := step_cases s
  · rw [hs] at h; cases h; exact .inl ⟨hp, rfl⟩
  · rw [hs] at h; cases h
  · obtain ⟨-, hc⟩ | ⟨w, hpc, hf, hc⟩ := cycle_cases s
    · rw [hs, hc] at h; cases h
    · exact .inr ⟨hp, hh, w, hpc, hf, by rw [← hc, ← hs, h]⟩

/-- What the host's cycle reports and leaves, from what the cycle does (40_cycle R104, R115). -/
theorem runCycle_of_next {s t : State} (h : cycle s = .next t) :
    runCycle s = (if t.halted then .fault t.fault else .ok, t) := by
  rw [runCycle, h]; dsimp only; split <;> rfl

theorem runCycle_of_fetchError {s : State} (h : cycle s = .fault (.fetchError s.pc)) :
    runCycle s = (.fetchError s.pc, s) := by
  rw [runCycle, h]

/-- All that the host's cycle can do (40_cycle R101, R115): FetchError and no change, or the fetched instruction's next state, with
its record as the result when it halts the core. -/
theorem runCycle_cases (s : State) :
    (0xFFF ≤ s.pc.toNat ∧ runCycle s = (.fetchError s.pc, s))
      ∨ (∃ w t, s.pc.toNat ≤ 0xFFE ∧ fetchWord s = some w ∧ exec (decode w) (advancePc s) = .next t
          ∧ runCycle s = (if t.halted then .fault t.fault else .ok, t)) := by
  obtain ⟨h, hc⟩ | ⟨w, h, hf, hc⟩ := cycle_cases s
  · exact .inl ⟨h, runCycle_of_fetchError hc⟩
  · obtain ⟨t, he⟩ := exec_next (decode w) (advancePc s)
    exact .inr ⟨w, t, h, hf, he, runCycle_of_next (hc.trans he)⟩

/-! ## The codes of the failures (60_exceptions R200) -/

/-- No record has FetchError's code (10_state R39). -/
theorem FaultCode.number_ne_fetchErrorNumber (c : FaultCode) : c.number ≠ fetchErrorNumber := by
  cases c <;> decide

/-- The codes tell the faults apart. -/
theorem FaultCode.number_inj {c d : FaultCode} (h : c.number = d.number) : c = d := by
  cases c <;> cases d <;> first | rfl | exact absurd h (by decide)

@[simp] theorem HostResult.code_fetchError (pc : Word) : (HostResult.fetchError pc).code = some fetchErrorNumber := rfl
@[simp] theorem HostResult.code_fault (record : FaultRecord) : (HostResult.fault record).code = some record.code.number := rfl
@[simp] theorem HostResult.kind_fetchError (pc : Word) : (HostResult.fetchError pc).kind = some .recoverable := rfl
@[simp] theorem HostResult.kind_fault (record : FaultRecord) : (HostResult.fault record).kind = some .fatal := rfl

/-- The result and the record of a host operation that raises a fatal fault on a core that is not halted. -/
theorem raiseFatal_of_noFault {s : State} (code : FaultCode) (word addr : Word) (h : s.halted = false) :
    raiseFatal code word addr s = (.fault ⟨code, word, addr⟩, { s with fault := ⟨code, word, addr⟩ }) := by
  rw [raiseFatal, fatal_of_noFault s code word addr ((halted_eq_false_iff s).1 h)]

/-! ## The host operations, case by case -/

/-- All that `clock()` can do (40_cycle R107). -/
theorem opClock_cases (s : State) :
    (s.paused = true ∧ opClock s = (.ok, s))
      ∨ (s.paused = false ∧ s.halted = true ∧ opClock s = (.fault s.fault, s))
      ∨ (s.paused = false ∧ s.halted = false ∧ opClock s = runCycle s) := by
  unfold opClock
  cases hp : s.paused <;> cases hh : s.halted <;> simp

/-- All that `step()` can do (40_cycle R108). -/
theorem opStep_cases (s : State) :
    (s.halted = true ∧ opStep s = (.fault s.fault, s))
      ∨ (s.halted = false ∧ opStep s = ((runCycle s).1, { (runCycle s).2 with paused := s.paused })) := by
  unfold opStep forceCycle
  cases hh : s.halted <;> simp only [if_true, Bool.false_eq_true, if_false]
  · exact .inr ⟨trivial, trivial⟩
  · exact .inl ⟨trivial, trivial⟩

/-- All that `load(bytes)` can do (20_memory R58, 60_exceptions R205). -/
theorem opLoad_cases (bytes : List Byte) (s : State) :
    (bytes.length ≤ 3584 ∧ opLoad bytes s = (.ok, storeProgram bytes s))
      ∨ (3584 < bytes.length ∧ opLoad bytes s = raiseFatal .loadOverflow 0x0000#16 0x0200#16 (scrambleProgramArea s)) := by
  unfold opLoad Config.maxProgram
  split
  · exact .inr ⟨by omega, rfl⟩
  · exact .inl ⟨by omega, rfl⟩

/-- All that `read_memory(addr)` can do (20_memory R61). -/
theorem opReadMemory_cases (addr : Word) (s : State) :
    (addr.toNat ≤ 0xFFF ∧ opReadMemory addr s = (.byte (s.byteAt addr.toNat), s))
      ∨ (0xFFF < addr.toNat ∧ opReadMemory addr s = raiseFatal .badHostIndex addr 0x0000#16 s) := by
  obtain ⟨h, hr⟩ | ⟨h, hr⟩ := memRead1_cases s.mem addr
  · exact .inr ⟨h, by rw [opReadMemory, hr]; rfl⟩
  · exact .inl ⟨h, by rw [opReadMemory, hr]; rfl⟩

/-- All that `read_register(r)` can do (40_cycle R113). -/
theorem opReadRegister_cases (r : Nat) (s : State) :
    (r ≤ 15 ∧ opReadRegister r s = (.byte (s.readV (BitVec.ofNat 4 r)), s))
      ∨ (15 < r ∧ opReadRegister r s = raiseFatal .badHostIndex (BitVec.ofNat 16 r) 0x0000#16 s) := by
  unfold opReadRegister
  split
  · exact .inr ⟨by omega, rfl⟩
  · exact .inl ⟨by omega, rfl⟩

/-- All that `write_register(r, value)` can do (40_cycle R113). -/
theorem opWriteRegister_cases (r : Nat) (value : Byte) (s : State) :
    (r ≤ 15 ∧ opWriteRegister r value s = (.done, writeV (BitVec.ofNat 4 r) value s))
      ∨ (15 < r ∧ opWriteRegister r value s = raiseFatal .badHostIndex (BitVec.ofNat 16 r) 0x0000#16 s) := by
  unfold opWriteRegister
  split
  · exact .inr ⟨by omega, rfl⟩
  · exact .inl ⟨by omega, rfl⟩

/-- A word placed at pc is the instruction the very next step runs, whatever the paused flag and the fault record were. -/
theorem step_withFetchWord {s : State} {lo : Nat} (nbits w : Nat) (h : Memory.wfFrom lo s.mem = true) (hlo : lo ≤ s.pc.toNat)
    (hpc : s.pc.toNat ≤ 0xFFE) :
    step (s.withFetchWord nbits w) = exec (decode (tableWord nbits w)) (advancePc (s.withFetchWord nbits w)) := by
  have hf := fetchWord_placeWordAtPc (tableWord nbits w) h hlo hpc
  obtain ⟨hp, -⟩ | ⟨-, hh, -⟩ | ⟨-, -, hs⟩ := step_cases (s.withFetchWord nbits w)
  · cases hp
  · cases hh
  · rw [hs, cycle, State.withFetchWord, hf]

end Sys2Proof.Machine
end

