-- ==== Sys2Proof/Tests/Slice0.lean ====
section
/-! SUPPORT. The model's own tests: the well-formedness smoke test, words decoded as 30_encoding gives them, one-step vectors of
95_test_vectors (named by their ids), and for every statement with hypotheses a witness that meets them. -/

namespace Sys2Proof.Tests

open Sys2Proof.Machine

/-! ## Helpers -/

/-- What a next state shows; `none` where there is no next state. -/
def seen {α : Type} (o : Host.Outcome State Fault Refusal) (f : State → α) : Option α :=
  match o with
  | .next t => some (f t)
  | .fault _ => none
  | .refused _ => none

/-- The reset state with a program loaded. -/
def loaded (bytes : List Byte) : State := storeProgram bytes State.reset

/-- A handler's state for an instruction at 0x200. -/
def handler : State := { State.reset with pc := 0x0202#16 }

/-- The handler's state with one register set. -/
def withV (x : RegIx) (v : Byte) : State := writeV x v handler

/-- A state that StackUnderflow has halted (vector S3). -/
def halted3 : State := { handler with fault := ⟨.stackUnderflow, 0x00EE#16, 0x0200#16⟩ }

/-! ## Well-formedness: the one check refuses a raw word that is some instruction's (30_encoding R87) -/

theorem test_wf_refuses_ret_word : (Instr.unimplemented 0x00EE#16).wf = false := by decide
theorem test_wf_refuses_sknp_word : (Instr.unimplemented 0xE3A1#16).wf = false := by decide
theorem test_wf_takes_cls_word : (Instr.unimplemented 0x00E0#16).wf = true := by decide

/-! ## Decoding (vectors E1-E20; words bit by bit from 30_encoding R84) -/

theorem test_decode_ret : decode 0b0000000011101110#16 = .ret := by decide
theorem test_decode_0x01EE : decode 0b0000000111101110#16 = .unimplemented 0x01EE#16 := by decide
theorem test_decode_0x0000 : decode 0x0000#16 = .unimplemented 0x0000#16 := by decide
theorem test_decode_jp : decode 0b0001101010111100#16 = .jp 0xABC#12 := by decide
theorem test_decode_call : decode 0b0010111111111111#16 = .call 0xFFF#12 := by decide
theorem test_decode_se : decode 0b0011001100010010#16 = .se 0x3#4 0x12#8 := by decide
theorem test_decode_sne : decode 0b0100101011111110#16 = .sne 0xA#4 0xFE#8 := by decide
theorem test_decode_ldV : decode 0b0110101001011100#16 = .ldV 0xA#4 0x5C#8 := by decide
theorem test_decode_addV : decode 0b0111111100100000#16 = .addV 0xF#4 0x20#8 := by decide
theorem test_decode_ldI : decode 0b1010001100000000#16 = .ldI 0x300#12 := by decide
theorem test_decode_rnd : decode 0b1100000011111111#16 = .rnd 0x0#4 0xFF#8 := by decide
theorem test_decode_drw : decode 0b1101000100100011#16 = .drw 0x1#4 0x2#4 0x3#4 := by decide
theorem test_decode_sknp : decode 0b1110001110100001#16 = .sknp 0x3#4 := by decide
theorem test_decode_0xE39E : decode 0b1110001110011110#16 = .unimplemented 0xE39E#16 := by decide
theorem test_decode_addI : decode 0b1111011100011110#16 = .addI 0x7#4 := by decide
theorem test_decode_0xF71F : decode 0b1111011100011111#16 = .unimplemented 0xF71F#16 := by decide
theorem test_decode_0x8124 : decode 0b1000000100100100#16 = .unimplemented 0x8124#16 := by decide
theorem test_decodeBytes_truncated : decodeBytes [0x60#8] = .error .truncated := by rfl
theorem test_decodeTableWord_call : decodeTableWord 16 0x2ABC = some (.call 0xABC#12) := by decide

theorem test_spelling :
    (decode 0x2204#16).spelling = some "CALL 0x204" ∧ (decode 0x70FF#16).spelling = some "ADD V0, 0xFF"
      ∧ (decode 0xFF1E#16).spelling = some "ADD I, VF" ∧ (decode 0xB123#16).spelling = none := by
  decide

/-! ## One instruction (vectors F1-F10, K1-K12, A1-A11, I1-I7, W1) -/

theorem test_ret_F4 :
    seen (exec .ret { handler with pc := 0x0206#16, S := [0x0202#16] }) (fun t => (t.pc, t.S)) = some (0x0202#16, []) := by
  decide
theorem test_ret_F5 :
    seen (exec .ret handler) (fun t => (t.pc, t.S, t.fault))
      = some (0x0202#16, [], ⟨.stackUnderflow, 0x00EE#16, 0x0200#16⟩) := by
  decide
theorem test_jp_F1 : seen (exec (.jp 0x345#12) handler) (·.pc) = some 0x0345#16 := by decide
theorem test_call_F8 :
    seen (exec (.call 0x300#12) { handler with pc := 0x1000#16 }) (fun t => (t.pc, t.S))
      = some (0x0300#16, [0x1000#16]) := by
  decide
theorem test_call_F6 :
    seen (exec (.call 0x400#12) { handler with pc := 0x0302#16, S := List.replicate 64 0x0202#16 })
      (fun t => (t.pc, t.S.length, t.fault)) = some (0x0302#16, 64, ⟨.stackOverflow, 0x2400#16, 0x0300#16⟩) := by
  decide
theorem test_se_K1 : seen (exec (.se 3#4 0x12#8) (withV 3#4 0x12#8)) (·.pc) = some 0x0204#16 := by decide
theorem test_se_K2 : seen (exec (.se 3#4 0x13#8) (withV 3#4 0x12#8)) (·.pc) = some 0x0202#16 := by decide
theorem test_sne_K3 : seen (exec (.sne 3#4 0x13#8) (withV 3#4 0x12#8)) (·.pc) = some 0x0204#16 := by decide
theorem test_sne_K4 : seen (exec (.sne 3#4 0x12#8) (withV 3#4 0x12#8)) (·.pc) = some 0x0202#16 := by decide
theorem test_sknp_K6 : (sknpWith (.key 0x05#8) 2#4 (withV 2#4 0x05#8)).pc = 0x0202#16 := by decide
theorem test_sknp_K9_K10 :
    (sknpWith .noKey 2#4 (withV 2#4 0xFF#8)).pc = 0x0204#16
      ∧ (sknpWith (.key 0x05#8) 2#4 (withV 2#4 0x15#8)).pc = 0x0204#16 := by
  decide
theorem test_ldV_A2 : seen (exec (.ldV 0xF#4 0x00#8) (withV 0xF#4 0x33#8)) (·.readV 0xF#4) = some 0x00#8 := by decide
theorem test_addV_A4 :
    seen (exec (.addV 0#4 0x01#8) (withV 0#4 0xFF#8)) (fun t => (t.readV 0#4, t.readV 0xF#4)) = some (0x00#8, 0x00#8) := by
  decide
theorem test_addV_A7 : seen (exec (.addV 0xF#4 0x20#8) (withV 0xF#4 0xF0#8)) (·.readV 0xF#4) = some 0x10#8 := by decide
theorem test_rnd_A8 : (rndWith 0xA5#8 1#4 0x0F#8 handler).readV 1#4 = 0x05#8 := by decide
theorem test_rnd_A9 : seen (exec (.rnd 1#4 0x00#8) handler) (·.env.randomDraws) = some 1 := by decide
theorem test_ldI_I2 : seen (exec (.ldI 0xFFF#12) { handler with I := 0xFFFF#16 }) (·.I) = some 0x0FFF#16 := by decide
theorem test_addI_I4 :
    seen (exec (.addI 0#4) { withV 0#4 0x01#8 with I := 0x0FFF#16 }) (·.I) = some 0x1000#16 := by
  decide
theorem test_addI_I5 :
    seen (exec (.addI 0#4) { withV 0#4 0x01#8 with I := 0xFFFF#16 }) (fun t => (t.I, t.readV 0xF#4))
      = some (0x0000#16, 0x00#8) := by
  decide
theorem test_drw_W2 : exec (.drw 0xF#4 0xF#4 0xF#4) handler = .next handler := by rfl
theorem test_unimplemented_Y6 :
    seen (step (loaded [0x5A#8, 0xB0#8])) (fun t => (t.pc, t.fault))
      = some (0x0202#16, ⟨.unimplemented, 0x5AB0#16, 0x0200#16⟩) := by
  decide

/-! ## Fetch, run control and host operations (vectors Y1-Y5, RC1-RC9, H4-H10) -/

theorem test_fetch_Y1 :
    seen (step { loaded [0x00#8, 0x60#8, 0x07#8] with pc := 0x0201#16 }) (fun t => (t.pc, t.readV 0#4))
      = some (0x0203#16, 0x07#8) := by
  decide
theorem test_fetch_Y4 :
    perform .clock { State.reset with pc := 0x0FFF#16 } = (.fetchError 0x0FFF#16, { State.reset with pc := 0x0FFF#16 }) := by
  rfl
theorem test_reset_Y5 :
    seen (step State.reset) (fun t => (t.pc, t.fault)) = some (0x0202#16, ⟨.unimplemented, 0x0000#16, 0x0200#16⟩) := by
  decide
theorem test_clock_RC5 :
    perform .clock { halted3 with paused := true } = (.ok, { halted3 with paused := true }) := by
  rfl
theorem test_step_RC2 :
    ((perform .step { loaded [0x60#8, 0x05#8] with paused := true }).1,
      (perform .step { loaded [0x60#8, 0x05#8] with paused := true }).2.paused,
      (perform .step { loaded [0x60#8, 0x05#8] with paused := true }).2.readV 0#4) = (.ok, true, 0x05#8) := by
  decide
theorem test_clock_RC8 : step halted3 = .fault (.halted ⟨.stackUnderflow, 0x00EE#16, 0x0200#16⟩) := by rfl
theorem test_load_H4 :
    (storeProgram [0x70#8, 0x05#8] (loaded [0x60#8, 0x01#8, 0x60#8, 0x02#8])).mem
      = [(0x200, 0x70#8), (0x201, 0x05#8), (0x202, 0x60#8), (0x203, 0x02#8)] := by
  decide
theorem test_readMemory_H6 :
    (perform (.readMemory 0x1000#16) State.reset).1 = .fault ⟨.badHostIndex, 0x1000#16, 0x0000#16⟩ := by
  decide
theorem test_readRegister_H7 :
    (perform (.readRegister 16) State.reset).1 = .fault ⟨.badHostIndex, 0x0010#16, 0x0000#16⟩ := by
  decide
theorem test_writeRegister_H10 :
    ((perform (.writeRegister 0 0x01#8) halted3).2.readV 0#4, (perform (.writeRegister 0 0x01#8) halted3).2.halted)
      = (0x01#8, true) := by
  decide
theorem test_faultCodes :
    [FaultCode.noFault, .unimplemented, .stackUnderflow, .stackOverflow, .loadOverflow, .badHostIndex].map FaultCode.number
      = [0, 2, 3, 4, 5, 6] := by
  decide
theorem test_fetchErrorCode :
    ((perform .step { State.reset with pc := 0x0FFF#16 }).1.code, (perform .step { State.reset with pc := 0x0FFF#16 }).1.kind)
      = (some 1, some .recoverable) := by
  decide
theorem test_ioErrorHasNoCode : (perform (.loadFile none) State.reset).1.code = none := by decide
theorem test_runEnd :
    (loaded [0x12#8, 0x00#8]).runEnd = .idle ∧ { State.reset with pc := 0x1000#16 }.runEnd = .stuck
      ∧ halted3.runEnd = .halted ∧ State.reset.runEnd = .running := by
  decide
theorem test_withFetchWord_call :
    seen (step (State.reset.withFetchWord 16 0x2204)) (fun t => (t.pc, t.S)) = some (0x0204#16, [0x0202#16]) := by
  decide

/-! ## Witnesses: states and operands that meet the hypotheses of the statements, clause by clause -/

theorem witness_FetchIsBigEndian : ({ State.reset with pc := 0x0FFE#16 } : State).pc.toNat ≤ 0xFFE := by decide
theorem witness_FetchPastMemoryChangesNothing :
    0xFFF ≤ ({ State.reset with pc := 0x0FFF#16 } : State).pc.toNat
      ∧ ({ State.reset with pc := 0x0FFF#16 } : State).paused = false
      ∧ ({ State.reset with pc := 0x0FFF#16 } : State).halted = false := by
  decide
theorem witness_StepRunsTheDecodedInstruction :
    let s : State := { loaded [0x60#8, 0x05#8] with pc := 0x0200#16 }
    s.paused = false ∧ s.halted = false ∧ s.pc.toNat ≤ 0xFFE
      ∧ decodeBytes [s.byteAt s.pc.toNat, s.byteAt (s.pc.toNat + 1)] = .ok (.ldV 0#4 0x05#8, []) := by
  refine ⟨rfl, rfl, by decide, rfl⟩
theorem witness_ClockHonoursPauseAndStepKeepsIt :
    ({ State.reset with paused := true } : State).paused = true
      ∧ ((loaded [0x60#8, 0x05#8]).halted = false ∧ fetchWord (loaded [0x60#8, 0x05#8]) = some 0x6005#16)
      ∧ halted3.halted = true
      ∧ (({ State.reset with pc := 0x0FFF#16 } : State).halted = false
        ∧ fetchWord { State.reset with pc := 0x0FFF#16 } = none) := by
  decide
theorem witness_ClockReportsWhatTheMachineStepDoes :
    step { State.reset with paused := true } = .next { State.reset with paused := true }
      ∧ step { State.reset with pc := 0x0FFF#16 } = .fault (.fetchError 0x0FFF#16)
      ∧ step halted3 = .fault (.halted halted3.fault) := by
  exact ⟨rfl, rfl, rfl⟩
theorem witness_RetPopsOrUnderflows :
    ({ handler with S := [0x0207#16, 0x1000#16] } : State).S = [0x0207#16] ++ [0x1000#16]
      ∧ handler.S = [] ∧ handler.halted = false := by
  decide
theorem witness_JpJumps :
    handler.insnAddr.toNat = (0x200#12).toNat ∧ (0x1FE#12).toNat ≤ 0x1FE ∧ ∀ a : Nat, a < 0x200 → handler.byteAt a = 0#8 :=
  ⟨by decide, by decide, fun _ _ => rfl⟩
theorem witness_CallPushesAndJumps : handler.S.length ≠ handler.env.stackCapacity := by decide
theorem witness_CallOnAFullStackOverflows :
    ({ handler with S := List.replicate 64 0x0202#16 } : State).S.length = handler.env.stackCapacity
      ∧ ({ handler with S := List.replicate 64 0x0202#16 } : State).halted = false := by
  decide
theorem witness_CallThenRetReturnsAfterTheCall :
    let t : State := { handler with pc := 0x0204#16, S := [0x0202#16] }
    handler.S.length ≠ handler.env.stackCapacity ∧ exec (.call 0x204#12) handler = .next t
      ∧ ({ t with I := 0x0300#16, pc := 0x0208#16 } : State).S = t.S := by
  refine ⟨by decide, rfl, rfl⟩
theorem witness_SeSkipsWhenEqual :
    (withV 3#4 0x12#8).readV 3#4 = 0x12#8 ∧ (withV 3#4 0x12#8).readV 3#4 ≠ 0x13#8
      ∧ ({ handler with pc := 0x1000#16 } : State).readV 0#4 = 0x00#8
      ∧ ({ handler with pc := 0x1000#16 } : State).insnAddr = 0x0FFE#16 := by
  decide
theorem witness_SneSkipsWhenDifferent :
    (withV 3#4 0x12#8).readV 3#4 ≠ 0x13#8 ∧ (withV 3#4 0x12#8).readV 3#4 = 0x12#8
      ∧ ({ handler with pc := 0x1000#16 } : State).readV 0#4 ≠ 0x01#8
      ∧ ({ handler with pc := 0x1000#16 } : State).insnAddr = 0x0FFE#16 := by
  decide
theorem witness_SknpSkipsUnlessTheKeyIsPressed :
    KeyResult.key 0x05#8 = .key ((withV 2#4 0x05#8).readV 2#4) ∧ KeyResult.key 0x07#8 ≠ .key ((withV 2#4 0x05#8).readV 2#4)
      ∧ KeyResult.noKey ≠ .key ((withV 2#4 0x05#8).readV 2#4) := by
  decide
theorem witness_encodingClauses :
    0x1ABC#16 &&& 0xF000#16 = 0x1000#16 ∧ 0x2FFF#16 &&& 0xF000#16 = 0x2000#16 ∧ 0x3312#16 &&& 0xF000#16 = 0x3000#16
      ∧ 0x4312#16 &&& 0xF000#16 = 0x4000#16 ∧ 0x6A5C#16 &&& 0xF000#16 = 0x6000#16 ∧ 0x7F20#16 &&& 0xF000#16 = 0x7000#16
      ∧ 0xAFFF#16 &&& 0xF000#16 = 0xA000#16 ∧ 0xC0FF#16 &&& 0xF000#16 = 0xC000#16 ∧ 0xDFFF#16 &&& 0xF000#16 = 0xD000#16
      ∧ 0xEFA1#16 &&& 0xF0FF#16 = 0xE0A1#16 ∧ 0xFF1E#16 &&& 0xF0FF#16 = 0xF01E#16 := by
  decide
theorem witness_UnimplementedWordFaults :
    matchingMnemonics 0x5120#16 = [] ∧ matchingMnemonics 0xFFFF#16 = [] ∧ handler.halted = false := by
  decide
theorem witness_FaultsArePrecise :
    handler.halted = false ∧ seen (exec .ret handler) (·.halted) = some true
      ∧ seen (exec (.jp 0x300#12) handler) (·.halted) = some false := by
  decide
theorem witness_RegistersChangeOnlyAsDestinations :
    exec (.ldV 0xF#4 0x33#8) handler = .next (writeV 0xF#4 0x33#8 handler)
      ∧ (writeV 0xF#4 0x33#8 handler).readV 0xF#4 ≠ handler.readV 0xF#4 :=
  ⟨rfl, by decide⟩
theorem witness_PcChangesOnlyAsListed :
    exec (.jp 0x345#12) handler = .next { handler with pc := 0x0345#16 }
      ∧ fetchWord { State.reset with pc := 0x1000#16 } = none ∧ fetchWord State.reset = some 0x0000#16
      ∧ HostOp.load [] ≠ .reset ∧ HostOp.load [] ≠ .clock ∧ HostOp.load [] ≠ .step :=
  ⟨rfl, rfl, rfl, by decide, by decide, by decide⟩
theorem witness_OtherStateChangesOnlyThroughItsInstructions :
    (exec (.ldI 0x300#12) handler = .next { handler with I := 0x0300#16 } ∧ (0x0300#16 : Word) ≠ handler.I)
      ∧ (exec (.call 0x300#12) handler = .next { handler with pc := 0x0300#16, S := [0x0202#16] }
        ∧ [0x0202#16] ≠ handler.S) :=
  ⟨⟨rfl, by decide⟩, ⟨rfl, by decide⟩⟩
theorem witness_TheValueOfIReachesOnlyI :
    step (loaded [0x1F#8, 0xFF#8]) = .next { loaded [0x1F#8, 0xFF#8] with pc := 0x0FFF#16 } := by
  rfl
theorem witness_StepLooksOnlyAtTheFetchedBytes :
    let s := loaded [0x30#8, 0x00#8]
    let m := (loaded [0x30#8, 0x00#8, 0xFF#8, 0xFF#8]).mem
    Memory.read m s.pc.toNat = s.byteAt s.pc.toNat ∧ Memory.read m (s.pc.toNat + 1) = s.byteAt (s.pc.toNat + 1)
      ∧ step s = .next { s with pc := 0x0204#16 } := by
  refine ⟨rfl, rfl, rfl⟩
theorem witness_IdleIsWhereAClockChangesNothing :
    (loaded [0x12#8, 0x00#8]).paused = false ∧ (loaded [0x12#8, 0x00#8]).idle = true := by
  decide
theorem witness_StuckUntilReset :
    HostOp.reset ∉ [HostOp.clock, .step, .load [0x12#8]] ∧ fetchWord { State.reset with pc := 0x0FFF#16 } = none := by
  decide
theorem witness_HaltedUntilReset :
    HostOp.reset ∉ [HostOp.clock, .unpause, .readRegister 16] ∧ halted3.halted = true
      ∧ (runOps [HostOp.clock, .unpause, .readRegister 16] halted3).2.paused = false := by
  decide
theorem witness_LoadThenReadMemoryRoundTrip :
    (List.replicate 3584 0x11#8).length ≤ 3584 ∧ [0xAB#8, 0xCD#8].length ≤ 3584 ∧ (0x1FF#16 : Word).toNat < 0x200
      ∧ 0x200 + [0xAB#8, 0xCD#8].length ≤ (0x202#16 : Word).toNat := by
  refine ⟨by rw [List.length_replicate], by decide, by decide, by decide⟩
theorem witness_LoadWritesOnlyItsBytes : (loaded [0x60#8, 0x01#8]).mem.wf = true ∧ [0x70#8].length ≤ 3584 := by decide
theorem witness_LoadIsSeenByTheNextFetch :
    0 + 1 < [0x60#8, 0x09#8].length ∧ (loaded [0x60#8, 0x01#8]).mem.wf = true ∧ [0x60#8, 0x09#8].length ≤ 3584
      ∧ (loaded [0x60#8, 0x01#8]).pc.toNat = 0x200 + 0 := by
  decide
theorem witness_BootRunsTheFirstWordOfTheProgram : (List.replicate 3582 0x00#8).length ≤ 3582 := by
  rw [List.length_replicate]
theorem witness_OverlongLoadFaultsAndSparesTheRest :
    3584 < (List.replicate 3585 0x11#8).length ∧ State.reset.halted = false ∧ halted3.halted = true := by
  refine ⟨by rw [List.length_replicate]; decide, by decide, by decide⟩
theorem witness_AccessorsTouchOneField : (0x0FFF#16 : Word).toNat ≤ 0xFFF := by decide
theorem witness_BadHostIndexFaults :
    (HostOp.readMemory 0x1000#16 = .readMemory 0x1000#16 ∧ (0x1000#16 : Word).toNat = 0x1000 ∧ 0xFFF < 0x1000)
      ∧ (15 < 16 ∧ HostOp.readRegister 16 = .readRegister 16) := by
  decide
theorem witness_EachFailureIsRaisedByItsCause :
    State.reset.halted = false
      ∧ ((perform .clock { State.reset with pc := 0x0FFF#16 }).1.code, (perform .clock State.reset).1.code,
          (perform .step (loaded [0x00#8, 0xEE#8])).1.code,
          (perform .clock { loaded [0x2F#8, 0xFF#8] with S := List.replicate 64 0x0202#16 }).1.code,
          (perform (.readMemory 0x1000#16) State.reset).1.code, (perform (.writeRegister 16 0x01#8) State.reset).1.code)
        = (some 1, some 2, some 3, some 4, some 6, some 6)
      ∧ (perform .clock (loaded [0x60#8, 0x01#8])).1.code = none
      ∧ step { State.reset with pc := 0x0FFF#16 } = .fault (.fetchError 0x0FFF#16) :=
  ⟨by decide, by decide, by decide, rfl⟩
theorem witness_EachFailureIsRaisedByItsCause_load : (perform (.load (List.replicate 3585 0x11#8)) State.reset).1.code = some 5 := by
  obtain ⟨h, -⟩ | ⟨-, h⟩ := opLoad_cases (List.replicate 3585 0x11#8) State.reset
  · rw [List.length_replicate] at h; exact absurd h (by decide)
  · rw [perform, h]; rfl
theorem witness_FailureKindsAndRecords :
    State.reset.halted = false
      ∧ (perform (.loadFile none) State.reset).1.kind = some .recoverable
      ∧ ((perform .clock State.reset).1.kind, (perform .clock State.reset).2.fault)
        = (some .fatal, ⟨.unimplemented, 0x0000#16, 0x0200#16⟩)
      ∧ (perform (.readRegister 0x10010) State.reset).2.fault.word = 0x0010#16 := by
  decide
theorem witness_DecodeOfEncodeIsTheInstruction :
    (Instr.unimplemented 0xFFFF#16).wf = true ∧ (Instr.drw 0xF#4 0xF#4 0xF#4).wf = true := by
  decide
theorem witness_Inv_reset : State.reset.Inv :=
  ⟨rfl, Nat.zero_le _, fun _ h => (List.not_mem_nil h).elim, by decide, rfl⟩
theorem witness_HostOperationsKeepTheInvariant :
    State.Inv { loaded [0x60#8, 0x05#8] with pc := 0x1002#16, S := [0x0202#16, 0x1000#16], fault := halted3.fault } := by
  refine ⟨by decide, by decide, fun r hr => ?_, by decide, by decide⟩
  obtain rfl | rfl : r = 0x0202#16 ∨ r = 0x1000#16 := by simpa using hr
  all_goals decide
theorem witness_ClockKeepsTheInvariant :
    State.reset.Inv ∧ step State.reset
      = .next { State.reset with pc := 0x0202#16, fault := ⟨.unimplemented, 0x0000#16, 0x0200#16⟩ } :=
  ⟨witness_Inv_reset, rfl⟩
theorem witness_LowMemoryStaysZeroAndPcBounded :
    ({ State.reset with pc := 0x01FE#16 } : State).Inv ∧ (runOps [] { State.reset with pc := 0x01FE#16 }).2.pc.toNat ≤ 0x1FE :=
  ⟨⟨rfl, Nat.zero_le _, fun _ h => (List.not_mem_nil h).elim, by decide, rfl⟩, by decide⟩
theorem witness_MemoriesThatReadAlikeAreEqual :
    Memory.wf [(0xFFF, 0x01#8)] = true ∧ ∀ a : Nat, a ≤ 0xFFF → Memory.read [(0xFFF, 0x01#8)] a = Memory.read [(0xFFF, 0x01#8)] a :=
  ⟨by decide, fun _ _ => rfl⟩

end Sys2Proof.Tests
end

/-! # The state's fields: who changes them, and the invariant (10_state) -/

namespace Sys2Proof.Machine

/-! ## What a handler does, said once -/

/-- The ways a handler can end, one constructor per instruction and two for RET and CALL, which can fault. `exec_eq_next_iff` ties
it to `exec`: a proof about all handlers is a case split over it. -/
inductive ExecEffect (s : State) : Instr → State → Prop
  | retUnderflow (h : s.S = []) : ExecEffect s .ret (fatal .stackUnderflow 0x00EE#16 s.insnAddr s)
  | retPop (rest : List Word) (r : Word) (h : s.S = rest ++ [r]) : ExecEffect s .ret { s with S := rest, pc := r }
  | jp (addr : Addr12) : ExecEffect s (.jp addr) (jumpTo (zextAddr addr) s)
  | callOverflow (addr : Addr12) (h : s.S.length = s.env.stackCapacity) :
      ExecEffect s (.call addr) (fatal .stackOverflow (formA 0x2#4 addr) s.insnAddr s)
  | callPush (addr : Addr12) (h : s.S.length ≠ s.env.stackCapacity) :
      ExecEffect s (.call addr) { s with S := s.S ++ [s.pc], pc := zextAddr addr }
  | se (x : RegIx) (nn : Byte) : ExecEffect s (.se x nn) (skipIf (condEqual (s.readV x) nn) s)
  | sne (x : RegIx) (nn : Byte) : ExecEffect s (.sne x nn) (skipIf (condNotEqual (s.readV x) nn) s)
  | ldV (x : RegIx) (nn : Byte) : ExecEffect s (.ldV x nn) (writeV x nn s)
  | addV (x : RegIx) (nn : Byte) : ExecEffect s (.addV x nn) (writeV x (sum8 (s.readV x) nn) s)
  | ldI (addr : Addr12) : ExecEffect s (.ldI addr) (writeI (zextAddr addr) s)
  | rnd (x : RegIx) (nn : Byte) : ExecEffect s (.rnd x nn) (writeV x (maskByte (drawByte s).1 nn) (drawByte s).2)
  | drw (x y n : BitVec 4) : ExecEffect s (.drw x y n) s
  | sknp (x : RegIx) :
      ExecEffect s (.sknp x) (skipIf (condKeyNotPressed (keyQuery s).1 (s.readV x)) (keyQuery s).2)
  | addI (x : RegIx) : ExecEffect s (.addI x) (writeI (sum16 s.I (zextByte (s.readV x))) s)
  | unimplemented (w : Word) : ExecEffect s (.unimplemented w) (fatal .unimplemented w s.insnAddr s)

theorem execEffect_of_exec {i : Instr} {s t : State} (h : exec i s = .next t) : ExecEffect s i t := by
  cases i
  case ret =>
    change execRet s = _ at h
    obtain ⟨hS, he⟩ | ⟨rest, r, hS, he⟩ := execRet_cases s <;> rw [he] at h <;> cases h
    · exact .retUnderflow hS
    · exact .retPop rest r hS
  case call addr =>
    change execCall addr s = _ at h
    obtain ⟨hS, he⟩ | ⟨hS, he⟩ := execCall_cases addr s <;> rw [he] at h <;> cases h
    · exact .callOverflow addr hS
    · exact .callPush addr hS
  all_goals
    cases h
    constructor

theorem exec_of_execEffect {i : Instr} {s t : State} (h : ExecEffect s i t) : exec i s = .next t := by
  cases h
  case retUnderflow hS => simp [exec, execRet, pop, hS, encode]
  case retPop rest r hS => simp [exec, execRet, pop, hS, jumpTo]
  case callOverflow addr hS => simp [exec, execCall, State.stackFull, hS, encode]
  case callPush addr hS => simp [exec, execCall, State.stackFull, hS, jumpTo, push]
  all_goals rfl

/-- A handler's next states are exactly the effects listed. -/
theorem exec_eq_next_iff {i : Instr} {s t : State} : exec i s = .next t ↔ ExecEffect s i t :=
  ⟨execEffect_of_exec, exec_of_execEffect⟩

/-! ## Who changes which field -/

theorem skipIf_pc_cases (c : Bool) (s : State) : (skipIf c s).pc = s.pc ∨ (skipIf c s).pc = s.pc + 2 := by
  cases c
  · exact .inl rfl
  · exact .inr rfl

/-- A register write shows only in the register written. -/
theorem eq_of_readV_writeV_ne {x y : RegIx} {v : Byte} {s : State} (h : (writeV x v s).readV y ≠ s.readV y) : x = y := by
  by_contra hne
  exact h (readV_writeV_ne v s fun e => hne e.symm)

namespace ExecEffect

variable {i : Instr} {s t : State}

/-- A register reads another value only after a handler that names it as its destination (10_state R21). -/
theorem destination_of_readV_ne {x : RegIx} (h : ExecEffect s i t) (hx : t.readV x ≠ s.readV x) :
    ∃ nn, i = .ldV x nn ∨ i = .addV x nn ∨ i = .rnd x nn := by
  cases h
  case ldV y nn => exact ⟨nn, .inl (eq_of_readV_writeV_ne hx ▸ rfl)⟩
  case addV y nn => exact ⟨nn, .inr (.inl (eq_of_readV_writeV_ne hx ▸ rfl))⟩
  case rnd y nn => exact ⟨nn, .inr (.inr (eq_of_readV_writeV_ne (s := (drawByte s).2) hx ▸ rfl))⟩
  case retPop | callPush => exact absurd rfl hx
  all_goals exact absurd (by simp) hx

/-- The handlers' part of 10_state R29; the failing RET and CALL leave pc alone. -/
theorem pc_cases (h : ExecEffect s i t) :
    t.pc = s.pc
    ∨ (t.pc = s.pc + 2 ∧ ∃ x, i = .sknp x ∨ ∃ nn, i = .se x nn ∨ i = .sne x nn)
    ∨ (∃ addr, (i = .jp addr ∨ i = .call addr) ∧ t.pc.toNat = addr.toNat)
    ∨ (i = .ret ∧ s.S.getLast? = some t.pc) := by
  cases h
  case se x nn => exact (skipIf_pc_cases _ _).imp_right fun e => .inl ⟨e, x, .inr ⟨nn, .inl rfl⟩⟩
  case sne x nn => exact (skipIf_pc_cases _ _).imp_right fun e => .inl ⟨e, x, .inr ⟨nn, .inr rfl⟩⟩
  case sknp x => exact (skipIf_pc_cases _ _).imp_right fun e => .inl ⟨e, x, .inl rfl⟩
  case jp addr => exact .inr (.inr (.inl ⟨addr, .inl rfl, zextAddr_toNat addr⟩))
  case callPush addr _ => exact .inr (.inr (.inl ⟨addr, .inr rfl, zextAddr_toNat addr⟩))
  case retPop rest r hS => exact .inr (.inr (.inr ⟨rfl, by simp [hS]⟩))
  all_goals exact .inl (by simp)

theorem loadsI_of_I_ne (h : ExecEffect s i t) (hI : t.I ≠ s.I) : (∃ addr, i = .ldI addr) ∨ ∃ x, i = .addI x := by
  cases h
  case ldI addr => exact .inl ⟨addr, rfl⟩
  case addI x => exact .inr ⟨x, rfl⟩
  all_goals exact absurd (by simp) hI

theorem movesStack_of_S_ne (h : ExecEffect s i t) (hS : t.S ≠ s.S) : i = .ret ∨ ∃ addr, i = .call addr := by
  cases h
  case retPop => exact .inl rfl
  case callPush addr _ => exact .inr ⟨addr, rfl⟩
  all_goals exact absurd (by simp) hS

theorem env_sknp {x : RegIx} (h : ExecEffect s (.sknp x) t) : t.env = { s.env with keyDraws := s.env.keyDraws + 1 } := by
  cases h
  simp

theorem env_rnd {x : RegIx} {nn : Byte} (h : ExecEffect s (.rnd x nn) t) :
    t.env = { s.env with randomDraws := s.env.randomDraws + 1 } := by
  cases h
  simp

/-- No other instruction draws (40_cycle R118), and none changes the capacity. -/
theorem env_eq (h : ExecEffect s i t) (hk : ∀ x, i ≠ .sknp x) (hr : ∀ x nn, i ≠ .rnd x nn) : t.env = s.env := by
  cases h
  case sknp x => exact absurd rfl (hk x)
  case rnd x nn => exact absurd rfl (hr x nn)
  all_goals simp

end ExecEffect

/-! ## The value of I (10_state R25) -/

/-- Putting I back after a skip. -/
theorem writeI_skipIf_writeI (c : Bool) (v : Word) (s : State) : writeI (skipIf c s).I (skipIf c (writeI v s)) = skipIf c s := by
  cases c <;> rfl

/-- Putting I back after a fatal fault. -/
theorem writeI_fatal_writeI (code : FaultCode) (word addr v : Word) (s : State) :
    writeI (fatal code word addr s).I (fatal code word addr (writeI v s)) = fatal code word addr s := by
  by_cases h : s.fault.code = .noFault
  · rw [fatal_of_noFault s _ _ _ h, fatal_of_noFault (writeI v s) _ _ _ h]
    rfl
  · rw [fatal_of_fault s _ _ _ h, fatal_of_fault (writeI v s) _ _ _ h]
    rfl

/-- A handler that starts with another value in I does the same to everything but I. -/
theorem ExecEffect.of_writeI {i : Instr} {s t : State} (h : ExecEffect s i t) (v : Word) :
    ∃ t', ExecEffect (writeI v s) i t' ∧ writeI t.I t' = t := by
  cases h
  case retUnderflow hS => exact ⟨_, .retUnderflow hS, writeI_fatal_writeI _ _ _ v s⟩
  case callOverflow addr hS => exact ⟨_, .callOverflow addr hS, writeI_fatal_writeI _ _ _ v s⟩
  case unimplemented w => exact ⟨_, .unimplemented w, writeI_fatal_writeI _ _ _ v s⟩
  case se x nn => exact ⟨_, .se x nn, writeI_skipIf_writeI _ v s⟩
  case sne x nn => exact ⟨_, .sne x nn, writeI_skipIf_writeI _ v s⟩
  case sknp x => exact ⟨_, .sknp x, writeI_skipIf_writeI _ v (keyQuery s).2⟩
  case retPop rest r hS => exact ⟨_, .retPop rest r hS, rfl⟩
  case callPush addr hS => exact ⟨_, .callPush addr hS, rfl⟩
  case jp addr => exact ⟨_, .jp addr, rfl⟩
  case ldV x nn => exact ⟨_, .ldV x nn, rfl⟩
  case addV x nn => exact ⟨_, .addV x nn, rfl⟩
  case ldI addr => exact ⟨_, .ldI addr, rfl⟩
  case addI x => exact ⟨_, .addI x, rfl⟩
  case rnd x nn => exact ⟨_, .rnd x nn, rfl⟩
  case drw x y n => exact ⟨_, .drw x y n, rfl⟩

/-! ## Decoded instructions are well formed (30_encoding R85) -/

theorem decode_wf (w : Word) : (decode w).wf = true := by
  obtain rfl | hc | ⟨hc, hk⟩ | ⟨hc, hk⟩ | hu := word_cases w
  · rw [decode_ret]; rfl
  · simp only [List.mem_cons, List.not_mem_nil, or_false] at hc
    rcases hc with hc | hc | hc | hc | hc | hc | hc | hc | hc
    · rw [decode_jp hc]; rfl
    · rw [decode_call hc]; rfl
    · rw [decode_se hc]; rfl
    · rw [decode_sne hc]; rfl
    · rw [decode_ldV hc]; rfl
    · rw [decode_addV hc]; rfl
    · rw [decode_ldI hc]; rfl
    · rw [decode_rnd hc]; rfl
    · rw [decode_drw hc]; rfl
  · rw [decode_sknp hc hk]; rfl
  · rw [decode_addI hc hk]; rfl
  · rw [decode_unimplemented hu]; exact hu

/-! ## Each state operation keeps the invariant -/

/-- The invariant speaks of five fields and of the capacity: a state that agrees on them meets it too. -/
theorem inv_of_eq {s t : State} (hs : s.Inv) (hmem : t.mem = s.mem) (hS : t.S = s.S)
    (hcap : t.env.stackCapacity = s.env.stackCapacity) (hpc : t.pc = s.pc) (hf : t.fault = s.fault) : t.Inv := by
  unfold State.Inv at *
  rwa [hmem, hS, hcap, hpc, hf]

theorem writeV_keeps_inv {s : State} (x : RegIx) (v : Byte) (hs : s.Inv) : (writeV x v s).Inv :=
  inv_of_eq hs rfl rfl rfl rfl rfl

theorem writeI_keeps_inv {s : State} (v : Word) (hs : s.Inv) : (writeI v s).Inv := inv_of_eq hs rfl rfl rfl rfl rfl

theorem setPaused_keeps_inv {s : State} (b : Bool) (hs : s.Inv) : (setPaused b s).Inv := inv_of_eq hs rfl rfl rfl rfl rfl

theorem keyQuery_keeps_inv {s : State} (hs : s.Inv) : (keyQuery s).2.Inv := inv_of_eq hs rfl rfl rfl rfl rfl

theorem drawByte_keeps_inv {s : State} (hs : s.Inv) : (drawByte s).2.Inv := inv_of_eq hs rfl rfl rfl rfl rfl

theorem jumpTo_keeps_inv {s : State} {target : Word} (hs : s.Inv) (ht : target.toNat ≤ 0x1002) : (jumpTo target s).Inv := by
  obtain ⟨hmem, hlen, hret, -, hfault⟩ := hs
  exact ⟨hmem, hlen, hret, ht, hfault⟩

theorem zextAddr_le (addr : Addr12) : (zextAddr addr).toNat ≤ 0x1002 := by
  rw [zextAddr_toNat]
  omega

/-- One instruction width further, from a pc where the sum does not wrap (10_state R31). -/
theorem add_two_toNat {pc : Word} (h : pc.toNat ≤ 0x1000) : (pc + 2).toNat = pc.toNat + 2 := by
  bv_omega

theorem skipIf_keeps_inv {s : State} (c : Bool) (hs : s.Inv) (hpc : s.pc.toNat ≤ 0x1000) : (skipIf c s).Inv := by
  cases c
  · exact hs
  · exact jumpTo_keeps_inv hs (by rw [add_two_toNat hpc]; omega)

theorem advancePc_keeps_inv {s : State} (hs : s.Inv) (hpc : s.pc.toNat ≤ 0xFFE) : (advancePc s).Inv :=
  jumpTo_keeps_inv hs (by rw [add_two_toNat (by omega)]; omega)

/-- RET's pop: the entry goes to pc, and the entries left are fewer. -/
theorem popJump_keeps_inv {s : State} {rest : List Word} {r : Word} (hs : s.Inv) (hS : s.S = rest ++ [r]) :
    State.Inv { s with S := rest, pc := r } := by
  obtain ⟨hmem, hlen, hret, -, hfault⟩ := hs
  rw [hS] at hlen hret
  rw [List.length_append] at hlen
  have hr : r.toNat ≤ 0x1000 := hret r (by simp)
  exact ⟨hmem, by simp only; omega, fun q hq => hret q (List.mem_append_left _ hq), by simp only; omega, hfault⟩

/-- CALL's push: the return address is pc, and the stack was not full. -/
theorem pushJump_keeps_inv {s : State} {target : Word} (hs : s.Inv) (hpc : s.pc.toNat ≤ 0x1000)
    (hroom : s.S.length ≠ s.env.stackCapacity) (ht : target.toNat ≤ 0x1002) :
    State.Inv { s with S := s.S ++ [s.pc], pc := target } := by
  obtain ⟨hmem, hlen, hret, -, hfault⟩ := hs
  refine ⟨hmem, ?_, fun r hr => ?_, ht, hfault⟩
  · rw [List.length_append, List.length_singleton]
    simp only
    omega
  · obtain hr | hr := List.mem_append.1 hr
    · exact hret r hr
    · rwa [List.mem_singleton.1 hr]

/-- Fatal-fault entry, with a record the table of 60_exceptions R200 allows. -/
theorem fatal_keeps_inv {s : State} {code : FaultCode} {word addr : Word} (hs : s.Inv)
    (hl : FaultRecord.legal ⟨code, word, addr⟩ = true) : (fatal code word addr s).Inv := by
  by_cases h : s.fault.code = .noFault
  · obtain ⟨hmem, hlen, hret, hpc, -⟩ := hs
    rw [fatal_of_noFault s _ _ _ h]
    exact ⟨hmem, hlen, hret, hpc, hl⟩
  · rwa [fatal_of_fault s _ _ _ h]

theorem storeProgram_keeps_inv {s : State} {bytes : List Byte} (hl : bytes.length ≤ Config.maxProgram) (hs : s.Inv) :
    (storeProgram bytes s).Inv := by
  obtain ⟨hmem, hrest⟩ := hs
  exact ⟨storeProgram_keeps_wf bytes hl hmem, hrest⟩

theorem scrambleProgramArea_keeps_inv {s : State} (hs : s.Inv) : (scrambleProgramArea s).Inv := by
  obtain ⟨hmem, hrest⟩ := hs
  exact ⟨scrambleProgramArea_keeps_wf hmem, hrest⟩

/-- A reset core meets the invariant, whatever its capacity. -/
theorem resetCore_inv (s : State) : (resetCore s).Inv :=
  ⟨Memory.wfFrom_nil _, Nat.zero_le _, fun _ h => absurd h List.not_mem_nil, by rw [resetCore_pc]; decide, rfl⟩

/-! ## A handler, a clock and every host operation keep the invariant -/

/-- The handler of a well-formed instruction fetched below 0xFFF keeps the invariant: only a skip, a push and a fault record
need to know where the instruction stands. -/
theorem exec_keeps_inv {i : Instr} {s t : State} (hwf : i.wf = true) (hs : s.Inv) (hpc : s.pc.toNat ≤ 0xFFE)
    (h : exec i (advancePc s) = .next t) : t.Inv := by
  have ha := advancePc_keeps_inv hs hpc
  have hpc' : (advancePc s).pc.toNat ≤ 0x1000 := by
    rw [advancePc_pc, add_two_toNat (by omega)]
    omega
  cases execEffect_of_exec h
  case retUnderflow => exact fatal_keeps_inv ha (by simpa [FaultRecord.legal] using hpc)
  case callOverflow => exact fatal_keeps_inv ha (by simpa [FaultRecord.legal] using hpc)
  case unimplemented w =>
    have hw : inUnimplementedSpace w = true := hwf
    exact fatal_keeps_inv ha (by simp [FaultRecord.legal, hw, hpc])
  case retPop hS => exact popJump_keeps_inv ha hS
  case callPush addr hroom => exact pushJump_keeps_inv ha hpc' hroom (zextAddr_le addr)
  case jp addr => exact jumpTo_keeps_inv ha (zextAddr_le addr)
  case se | sne => exact skipIf_keeps_inv _ ha hpc'
  case sknp => exact skipIf_keeps_inv _ (keyQuery_keeps_inv ha) hpc'
  case ldV | addV => exact writeV_keeps_inv _ _ ha
  case rnd => exact writeV_keeps_inv _ _ (drawByte_keeps_inv ha)
  case ldI | addI => exact writeI_keeps_inv _ ha
  case drw => exact ha

@[simp] theorem raiseFatal_state (code : FaultCode) (word addr : Word) (s : State) :
    (raiseFatal code word addr s).2 = fatal code word addr s := rfl

/-- An index out of range is a legal record, whatever the index (60_exceptions R206). -/
theorem raiseBadHostIndex_keeps_inv {s : State} (word : Word) (hs : s.Inv) :
    (raiseFatal .badHostIndex word 0x0000#16 s).2.Inv :=
  fatal_keeps_inv hs rfl

theorem runCycle_keeps_inv {s : State} (hs : s.Inv) : (runCycle s).2.Inv := by
  obtain ⟨-, h⟩ | ⟨w, t, hpc, -, he, h⟩ := runCycle_cases s <;> rw [h]
  · exact hs
  · exact exec_keeps_inv (decode_wf w) hs hpc he

theorem opClock_keeps_inv {s : State} (hs : s.Inv) : (opClock s).2.Inv := by
  obtain ⟨-, h⟩ | ⟨-, -, h⟩ | ⟨-, -, h⟩ := opClock_cases s <;> rw [h]
  · exact hs
  · exact hs
  · exact runCycle_keeps_inv hs

theorem opStep_keeps_inv {s : State} (hs : s.Inv) : (opStep s).2.Inv := by
  obtain ⟨-, h⟩ | ⟨-, h⟩ := opStep_cases s <;> rw [h]
  · exact hs
  · exact setPaused_keeps_inv s.paused (runCycle_keeps_inv hs)

theorem opLoad_keeps_inv {s : State} (bytes : List Byte) (hs : s.Inv) : (opLoad bytes s).2.Inv := by
  obtain ⟨hl, h⟩ | ⟨-, h⟩ := opLoad_cases bytes s <;> rw [h]
  · exact storeProgram_keeps_inv hl hs
  · exact fatal_keeps_inv (scrambleProgramArea_keeps_inv hs) rfl

theorem opReadMemory_keeps_inv {s : State} (addr : Word) (hs : s.Inv) : (opReadMemory addr s).2.Inv := by
  obtain ⟨-, h⟩ | ⟨-, h⟩ := opReadMemory_cases addr s <;> rw [h]
  · exact hs
  · exact raiseBadHostIndex_keeps_inv _ hs

theorem opReadRegister_keeps_inv {s : State} (r : Nat) (hs : s.Inv) : (opReadRegister r s).2.Inv := by
  obtain ⟨-, h⟩ | ⟨-, h⟩ := opReadRegister_cases r s <;> rw [h]
  · exact hs
  · exact raiseBadHostIndex_keeps_inv _ hs

theorem opWriteRegister_keeps_inv {s : State} (r : Nat) (value : Byte) (hs : s.Inv) :
    (opWriteRegister r value s).2.Inv := by
  obtain ⟨-, h⟩ | ⟨-, h⟩ := opWriteRegister_cases r value s <;> rw [h]
  · exact writeV_keeps_inv _ _ hs
  · exact raiseBadHostIndex_keeps_inv _ hs

theorem perform_keeps_inv (op : HostOp) {s : State} (hs : s.Inv) : (perform op s).2.Inv := by
  cases op with
  | reset => exact resetCore_inv s
  | load bytes => exact opLoad_keeps_inv bytes hs
  | loadFile contents =>
    cases contents with
    | none => exact hs
    | some bytes => exact opLoad_keeps_inv bytes hs
  | clock => exact opClock_keeps_inv hs
  | step => exact opStep_keeps_inv hs
  | pause | unpause | togglePause => exact setPaused_keeps_inv _ hs
  | readMemory addr => exact opReadMemory_keeps_inv addr hs
  | readRegister r => exact opReadRegister_keeps_inv r hs
  | writeRegister r value => exact opWriteRegister_keeps_inv r value hs
  | writeAddressRegister value => exact writeI_keeps_inv value hs
  | instructionPointer | readAddressRegister => exact hs

/-! ## pc under the host operations (10_state R29) -/

theorem opLoad_pc (bytes : List Byte) (s : State) : (opLoad bytes s).2.pc = s.pc := by
  obtain ⟨-, h⟩ | ⟨-, h⟩ := opLoad_cases bytes s <;> simp [h]

theorem opReadMemory_pc (addr : Word) (s : State) : (opReadMemory addr s).2.pc = s.pc := by
  obtain ⟨-, h⟩ | ⟨-, h⟩ := opReadMemory_cases addr s <;> simp [h]

theorem opReadRegister_pc (r : Nat) (s : State) : (opReadRegister r s).2.pc = s.pc := by
  obtain ⟨-, h⟩ | ⟨-, h⟩ := opReadRegister_cases r s <;> simp [h]

theorem opWriteRegister_pc (r : Nat) (value : Byte) (s : State) : (opWriteRegister r value s).2.pc = s.pc := by
  obtain ⟨-, h⟩ | ⟨-, h⟩ := opWriteRegister_cases r value s <;> simp [h]

/-- No host operation but reset and the two that run a cycle changes pc. -/
theorem perform_pc {op : HostOp} (s : State) (hr : op ≠ .reset) (hc : op ≠ .clock) (hs : op ≠ .step) :
    (perform op s).2.pc = s.pc := by
  cases op with
  | reset => exact absurd rfl hr
  | clock => exact absurd rfl hc
  | step => exact absurd rfl hs
  | load bytes => exact opLoad_pc bytes s
  | loadFile contents =>
    cases contents with
    | none => rfl
    | some bytes => exact opLoad_pc bytes s
  | readMemory addr => exact opReadMemory_pc addr s
  | readRegister r => exact opReadRegister_pc r s
  | writeRegister r value => exact opWriteRegister_pc r value s
  | pause | unpause | togglePause | instructionPointer | readAddressRegister | writeAddressRegister => rfl

theorem cycle_of_no_fetch {s : State} (h : fetchWord s = none) : cycle s = .fault (.fetchError s.pc) := by
  rw [cycle, h]

theorem cycle_of_fetch {s : State} {w : Word} (h : fetchWord s = some w) : cycle s = exec (decode w) (advancePc s) := by
  rw [cycle, h]

/-! ## Reset (70_reset_and_hazards R250) -/

theorem reset_byteAt (a : Nat) : State.reset.byteAt a = 0#8 := rfl

theorem reset_readV (x : RegIx) : State.reset.readV x = 0#8 := Vector.getElem_replicate x.isLt

/-! ## The obligations, by tier -/

/-- Settles O50: a clock that answers a next state changed nothing or ran the handler of a fetched word, and every effect of a
handler keeps the invariant. -/
theorem clockKeepsTheInvariant : Obligations.ClockKeepsTheInvariant := by
  intro s t hs h
  obtain ⟨-, rfl⟩ | ⟨-, -, w, hpc, -, he⟩ := step_next_cases h
  · exact hs
  · exact exec_keeps_inv (decode_wf w) hs hpc he

/-- Settles O51, operation by operation. -/
theorem hostOperationsKeepTheInvariant : Obligations.HostOperationsKeepTheInvariant :=
  fun op _ hs => perform_keeps_inv op hs

/-- Settles O27: a register's value can only differ where a handler's effect is a write of that register. -/
theorem registersChangeOnlyAsDestinations : Obligations.RegistersChangeOnlyAsDestinations :=
  fun _ _ _ _ h hx => (execEffect_of_exec h).destination_of_readV_ne hx

/-- Settles O28: the handlers by their effects, the cycle by its fetch, and the host operations one by one. -/
theorem pcChangesOnlyAsListed : Obligations.PcChangesOnlyAsListed := by
  refine ⟨fun i s t h => (execEffect_of_exec h).pc_cases, fun s => ⟨resetCore_pc s, rfl, cycle_of_no_fetch, fun w hf => ?_⟩,
    fun op s hr hc hs => perform_pc s hr hc hs⟩
  exact ⟨cycle_of_fetch hf, advancePc_pc s⟩

/-- Settles O29: I, the stack and the draw counters, each read off the handler's effect. -/
theorem otherStateChangesOnlyThroughItsInstructions : Obligations.OtherStateChangesOnlyThroughItsInstructions := by
  intro i s t h
  have he := execEffect_of_exec h
  refine ⟨he.loadsI_of_I_ne, he.movesStack_of_S_ne, ?_, ?_, he.env_eq⟩
  · rintro ⟨x, rfl⟩
    exact he.env_sknp
  · rintro ⟨x, nn, rfl⟩
    exact he.env_rnd

/-- Settles O30: the same word is fetched, and its handler's effect is the same on everything but I. -/
theorem theValueOfIReachesOnlyI : Obligations.TheValueOfIReachesOnlyI := by
  intro s t v h
  obtain ⟨hp, rfl⟩ | ⟨hp, hh, w, -, hf, he⟩ := step_next_cases h
  · exact ⟨writeI v t, by simp [step, clockOutcome, hp, writeI], rfl⟩
  · obtain ⟨t', he', ht⟩ := (execEffect_of_exec he).of_writeI v
    have hstep : step (writeI v s) = exec (decode w) (advancePc (writeI v s)) := step_of_fetch hp hh hf
    exact ⟨t', hstep.trans (exec_of_execEffect he'), ht⟩

/-- Settles O1, field by field. -/
theorem resetZeroesTheCore : Obligations.ResetZeroesTheCore :=
  ⟨fun a _ => reset_byteAt a, reset_readV, rfl, rfl, rfl⟩

/-- Settles O2: `resetCore` is `State.reset` with the parameters of the step kept. -/
theorem resetInputConstructsAnew : Obligations.ResetInputConstructsAnew :=
  ⟨rfl, rfl, rfl, fun s => ⟨resetCore s, rfl, rfl, rfl, rfl, rfl, rfl, rfl, rfl, rfl, rfl⟩⟩

/-- Settles O49: the core at reset is a reset core with the initial parameters. -/
theorem resetMeetsTheInvariant : Obligations.ResetMeetsTheInvariant := resetCore_inv State.reset

end Sys2Proof.Machine

/-! # Memory: the canonical form, the fetch, the loader, and what no instruction touches (20_memory) -/

namespace Sys2Proof.Machine

/-! ## Memories in canonical form are equal when they read alike (20_memory R50) -/

@[simp] theorem Memory.read_nil (a : Nat) : Memory.read [] a = Memory.unlisted := rfl

@[simp] theorem Memory.read_cons_same (a : Nat) (v : Byte) (rest : Memory) : Memory.read ((a, v) :: rest) a = v :=
  if_pos rfl

theorem Memory.read_cons_ne {a c : Nat} (v : Byte) (rest : Memory) (h : c ≠ a) :
    Memory.read ((a, v) :: rest) c = Memory.read rest c :=
  if_neg h

/-- An address that does not read as unlisted is in the range of the listed ones. -/
theorem Memory.le_of_read_ne {lo a : Nat} {m : Memory} (h : Memory.wfFrom lo m = true)
    (hr : m.read a ≠ Memory.unlisted) : lo ≤ a := by
  by_contra hlt
  exact hr (Memory.read_below h (by omega))

/-- The listed addresses start at the first one. -/
theorem Memory.wfFrom_head {lo a : Nat} {v : Byte} {rest : Memory} (h : Memory.wfFrom lo ((a, v) :: rest) = true) :
    Memory.wfFrom a ((a, v) :: rest) = true := by
  rw [Memory.wfFrom_cons] at h ⊢
  exact ⟨le_rfl, h.2⟩

/-- Memories that read alike and whose listed addresses start at the first one start at the same address: the first listed
address of one does not read as unlisted in the other. -/
theorem Memory.head_le_of_read_eq {lo lo' a b : Nat} {v u : Byte} {rest rest' : Memory}
    (h : Memory.wfFrom lo ((a, v) :: rest) = true) (h' : Memory.wfFrom lo' ((b, u) :: rest') = true)
    (heq : ∀ c, Memory.read ((a, v) :: rest) c = Memory.read ((b, u) :: rest') c) : a ≤ b := by
  obtain ⟨-, -, hu, -⟩ := (Memory.wfFrom_cons _ _ _ _).1 h'
  exact Memory.le_of_read_ne (Memory.wfFrom_head h) (by rwa [heq b, Memory.read_cons_same])

/-- Past equal first entries the rests read alike too: neither lists the first address again. -/
theorem Memory.read_tail_eq {a : Nat} {v : Byte} {rest rest' : Memory} (h : Memory.wfFrom (a + 1) rest = true)
    (h' : Memory.wfFrom (a + 1) rest' = true)
    (heq : ∀ c, Memory.read ((a, v) :: rest) c = Memory.read ((a, v) :: rest') c) (c : Nat) :
    rest.read c = rest'.read c := by
  by_cases hc : c = a
  · rw [Memory.read_below h (by omega), Memory.read_below h' (by omega)]
  · simpa only [Memory.read_cons_ne v _ hc] using heq c

theorem Memory.ext_of_wfFrom {lo lo' : Nat} {m m' : Memory} (h : Memory.wfFrom lo m = true)
    (h' : Memory.wfFrom lo' m' = true) (heq : ∀ c, m.read c = m'.read c) : m = m' := by
  induction m generalizing lo lo' m' with
  | nil =>
    cases m' with
    | nil => rfl
    | cons p rest' =>
      obtain ⟨b, u⟩ := p
      obtain ⟨-, -, hu, -⟩ := (Memory.wfFrom_cons _ _ _ _).1 h'
      exact absurd (heq b).symm (by simpa using hu)
  | cons p rest ih =>
    obtain ⟨a, v⟩ := p
    obtain ⟨-, -, hv, hrest⟩ := (Memory.wfFrom_cons _ _ _ _).1 h
    cases m' with
    | nil => exact absurd (heq a) (by simpa using hv)
    | cons p' rest' =>
      obtain ⟨b, u⟩ := p'
      obtain ⟨-, -, -, hrest'⟩ := (Memory.wfFrom_cons _ _ _ _).1 h'
      obtain rfl : a = b := le_antisymm (Memory.head_le_of_read_eq h h' heq)
        (Memory.head_le_of_read_eq h' h fun c => (heq c).symm)
      obtain rfl : v = u := by simpa using heq a
      rw [ih hrest hrest' (Memory.read_tail_eq hrest hrest' heq)]

/-! ## The fetch (20_memory R53, 40_cycle R102) -/

theorem fetchWord_of_le {s : State} (hpc : s.pc.toNat ≤ 0xFFE) :
    fetchWord s = some (wordOfBytes (s.byteAt s.pc.toNat) (s.byteAt (s.pc.toNat + 1))) := by
  obtain ⟨h, -⟩ | ⟨-, h⟩ := fetchWord_cases s
  · omega
  · exact h

/-! ## The loader and the memory accessor (20_memory R58-R62) -/

theorem opLoad_of_fits {bytes : List Byte} (s : State) (hl : bytes.length ≤ 3584) :
    opLoad bytes s = (.ok, storeProgram bytes s) := by
  obtain ⟨-, h⟩ | ⟨h, -⟩ := opLoad_cases bytes s
  · exact h
  · omega

theorem opReadMemory_of_le {a : Word} (s : State) (ha : a.toNat ≤ 0xFFF) :
    opReadMemory a s = (.byte (s.byteAt a.toNat), s) := by
  obtain ⟨-, h⟩ | ⟨h, -⟩ := opReadMemory_cases a s
  · exact h
  · omega

/-- A program that fits stands from 0x200 on (20_memory R58). -/
theorem storeProgram_byteAt_program {s : State} {bytes : List Byte} {k : Nat} (hmem : s.mem.wf = true)
    (hl : bytes.length ≤ 3584) (hk : k < bytes.length) : (storeProgram bytes s).byteAt (0x200 + k) = bytes[k] := by
  have hroom : Config.programBase + bytes.length ≤ 0x1000 := by
    rw [Config.programBase]
    omega
  rw [State.byteAt, storeProgram_mem, Memory.read_writeBytes bytes _ hmem (Nat.zero_le _) hroom]
  simp [Config.programBase, hk]

/-- Every byte outside the program reads as before (20_memory R59). -/
theorem storeProgram_byteAt_outside {bytes : List Byte} {a : Nat} (s : State)
    (ha : a < 0x200 ∨ 0x200 + bytes.length ≤ a) : (storeProgram bytes s).byteAt a = s.byteAt a :=
  Memory.read_writeBytes_ne s.mem bytes ha

theorem resetCore_mem_wf (s : State) : (resetCore s).mem.wf = true := rfl

theorem resetCore_byteAt (s : State) (a : Nat) : (resetCore s).byteAt a = 0#8 := rfl

/-! ## No handler touches memory or the run-state flag (20_memory R50, 10_state R38) -/

/-- A state with another memory and another run-state flag. -/
def withMemoryAndPaused (m : Memory) (b : Bool) (s : State) : State := { s with mem := m, paused := b }

theorem skipIf_withMemoryAndPaused (m : Memory) (b c : Bool) (s : State) :
    skipIf c (withMemoryAndPaused m b s) = withMemoryAndPaused m b (skipIf c s) := by
  cases c <;> rfl

theorem fatal_withMemoryAndPaused (m : Memory) (b : Bool) (code : FaultCode) (word addr : Word) (s : State) :
    fatal code word addr (withMemoryAndPaused m b s) = withMemoryAndPaused m b (fatal code word addr s) := by
  by_cases h : s.fault.code = .noFault
  · rw [fatal_of_noFault s _ _ _ h, fatal_of_noFault (withMemoryAndPaused m b s) _ _ _ h]
    rfl
  · rw [fatal_of_fault s _ _ _ h, fatal_of_fault (withMemoryAndPaused m b s) _ _ _ h]

namespace ExecEffect

variable {i : Instr} {s t : State}

theorem mem_eq (h : ExecEffect s i t) : t.mem = s.mem := by
  cases h
  all_goals simp

theorem paused_eq (h : ExecEffect s i t) : t.paused = s.paused := by
  cases h
  all_goals simp

/-- With another memory and another flag a handler does the same to everything else. -/
theorem of_withMemoryAndPaused (h : ExecEffect s i t) (m : Memory) (b : Bool) :
    ExecEffect (withMemoryAndPaused m b s) i (withMemoryAndPaused m b t) := by
  cases h
  case retUnderflow hS => exact fatal_withMemoryAndPaused m b _ _ _ s ▸ .retUnderflow hS
  case callOverflow addr hS => exact fatal_withMemoryAndPaused m b _ _ _ s ▸ .callOverflow addr hS
  case unimplemented w => exact fatal_withMemoryAndPaused m b _ _ _ s ▸ .unimplemented w
  case se x nn => exact skipIf_withMemoryAndPaused m b _ s ▸ .se x nn
  case sne x nn => exact skipIf_withMemoryAndPaused m b _ s ▸ .sne x nn
  case sknp x => exact skipIf_withMemoryAndPaused m b _ (keyQuery s).2 ▸ .sknp x
  case retPop rest r hS => exact .retPop rest r hS
  case callPush addr hS => exact .callPush addr hS
  case jp addr => exact .jp addr
  case ldV x nn => exact .ldV x nn
  case addV x nn => exact .addV x nn
  case ldI addr => exact .ldI addr
  case addI x => exact .addI x
  case rnd x nn => exact .rnd x nn
  case drw x y n => exact .drw x y n

end ExecEffect

/-! ## The invariant along a run of host operations -/

theorem runOps_keeps_inv (ops : List HostOp) {s : State} (hs : s.Inv) : (runOps ops s).2.Inv := by
  induction ops generalizing s with
  | nil => exact hs
  | cons op ops ih => exact ih (perform_keeps_inv op hs)

namespace State.Inv

variable {s : State} (hs : s.Inv)

include hs

theorem pc_le : s.pc.toNat ≤ 0x1002 := by
  obtain ⟨-, -, -, hpc, -⟩ := hs
  exact hpc

/-- Nothing stands below the program area (20_memory R52). -/
theorem byteAt_low {a : Nat} (ha : a < 0x200) : s.byteAt a = 0#8 := by
  obtain ⟨hmem, -⟩ := hs
  exact Memory.read_below hmem ha

theorem fetchWord_low (hpc : s.pc.toNat ≤ 0x1FE) : fetchWord s = some 0x0000#16 := by
  rw [fetchWord_of_le (by omega), hs.byteAt_low (by omega), hs.byteAt_low (by omega)]
  rfl

/-- The advance of pc does not wrap (10_state R31). -/
theorem advancePc_toNat : (advancePc s).pc.toNat = s.pc.toNat + 2 := by
  have hpc := hs.pc_le
  rw [advancePc_pc]
  bv_omega

end State.Inv

/-! ## The obligations, by tier -/

/-- Settles O26: the effect of every handler keeps memory and the flag, and is the same effect with others in their place. -/
theorem noInstructionReachesMemoryOrTheRunState : Obligations.NoInstructionReachesMemoryOrTheRunState := by
  intro i s m b
  obtain ⟨t, ht⟩ := exec_next i s
  have he := execEffect_of_exec ht
  exact ⟨t, ht, fun a => congrArg (Memory.read · a) he.mem_eq, he.paused_eq,
    exec_of_execEffect (he.of_withMemoryAndPaused m b)⟩

/-- Settles O35: after the reset every byte is 0x00, and the load puts the program over them. -/
theorem loadThenReadMemoryRoundTrip : Obligations.LoadThenReadMemoryRoundTrip := by
  intro s t bytes hl ht
  have hload : t = storeProgram bytes (resetCore s) := by
    rw [ht]
    exact congrArg Prod.snd (opLoad_of_fits (resetCore s) hl)
  subst hload
  refine ⟨fun k hk => ?_, fun a ha hout => ?_⟩
  · have hidx : (BitVec.ofNat 16 (0x200 + k)).toNat = 0x200 + k := by
      rw [BitVec.toNat_ofNat]
      omega
    rw [perform, opReadMemory_of_le _ (by omega), hidx, storeProgram_byteAt_program (resetCore_mem_wf s) hl hk]
  · rw [perform, opReadMemory_of_le _ ha, storeProgram_byteAt_outside _ hout, resetCore_byteAt]

/-- Settles O36: both loads of a program that fits leave `storeProgram`, which changes memory alone. -/
theorem loadWritesOnlyItsBytes : Obligations.LoadWritesOnlyItsBytes := fun s bytes hmem hl =>
  ⟨storeProgram bytes s, opLoad_of_fits s hl, opLoad_of_fits s hl, rfl,
    fun _ hk => storeProgram_byteAt_program hmem hl hk, fun _ ha => storeProgram_byteAt_outside s ha,
    rfl, rfl, rfl, rfl, fun _ => rfl, rfl, rfl⟩

/-- Settles O37: the fetch reads the two bytes at pc, which are the program's. -/
theorem loadIsSeenByTheNextFetch : Obligations.LoadIsSeenByTheNextFetch := by
  intro s bytes k hk hmem hl hpc
  rw [perform, opLoad_of_fits s hl]
  refine ⟨rfl, _, fetchWord_of_le (by rw [storeProgram_pc]; omega), ?_⟩
  rw [wordOfBytes_toNat, storeProgram_pc, hpc, Nat.add_assoc, storeProgram_byteAt_program hmem hl (by omega),
    storeProgram_byteAt_program hmem hl hk]

/-- Settles O52: every clause follows from the invariant, which every run keeps. -/
theorem lowMemoryStaysZeroAndPcBounded : Obligations.LowMemoryStaysZeroAndPcBounded := by
  intro ops s hs
  have ht := runOps_keeps_inv ops hs
  exact ⟨fun _ => ht.byteAt_low, ht.fetchWord_low, ht.pc_le, ht.advancePc_toNat⟩

/-- Settles O53: addresses above 0xFFF are unlisted in both, so the memories read alike everywhere. -/
theorem memoriesThatReadAlikeAreEqual : Obligations.MemoriesThatReadAlikeAreEqual := by
  intro m m' h h' heq
  refine Memory.ext_of_wfFrom h h' fun c => ?_
  by_cases hc : c ≤ 0xFFF
  · exact heq c hc
  · rw [Memory.read_above h (by omega), Memory.read_above h' (by omega)]

/-- Settles O3: the word fetched is its two bytes, the high one first. -/
theorem fetchIsBigEndian : Obligations.FetchIsBigEndian :=
  fun s hpc => ⟨_, fetchWord_of_le hpc, wordOfBytes_toNat (s.byteAt s.pc.toNat) (s.byteAt (s.pc.toNat + 1))⟩

end Sys2Proof.Machine

/-! # The encoding (30_encoding) -/

namespace Sys2Proof.Machine

/-! ## A word is put together from its fields (30_encoding R84) -/

theorem formA_fields (w : Word) : formA (fieldClass w) (fieldAddr w) = w :=
  BitVec.extractLsb'_append_extractLsb'

theorem formXN_fields (w : Word) : formXN (fieldClass w) (fieldX w) (fieldNN w) = w := by
  apply BitVec.eq_of_toNat_eq
  rw [formXN_toNat, fieldClass_toNat, fieldX_toNat, fieldNN_toNat]
  omega

theorem formXYN_fields (w : Word) : formXYN (fieldClass w) (fieldX w) (fieldY w) (fieldN w) = w := by
  apply BitVec.eq_of_toNat_eq
  rw [formXYN_toNat, fieldClass_toNat, fieldX_toNat, fieldY_toNat, fieldN_toNat]
  omega

/-! ## Decoder and encoder are inverse (30_encoding R85, R90) -/

theorem decode_encode {i : Instr} (h : i.wf = true) : decode (encode i) = i := by
  cases i
  case ret => exact decode_ret
  case jp addr => rw [encode, decode_jp (fieldClass_formA _ _), fieldAddr_formA]
  case call addr => rw [encode, decode_call (fieldClass_formA _ _), fieldAddr_formA]
  case ldI addr => rw [encode, decode_ldI (fieldClass_formA _ _), fieldAddr_formA]
  case se x nn => rw [encode, decode_se (fieldClass_formXN _ _ _), fieldX_formXN, fieldNN_formXN]
  case sne x nn => rw [encode, decode_sne (fieldClass_formXN _ _ _), fieldX_formXN, fieldNN_formXN]
  case ldV x nn => rw [encode, decode_ldV (fieldClass_formXN _ _ _), fieldX_formXN, fieldNN_formXN]
  case addV x nn => rw [encode, decode_addV (fieldClass_formXN _ _ _), fieldX_formXN, fieldNN_formXN]
  case rnd x nn => rw [encode, decode_rnd (fieldClass_formXN _ _ _), fieldX_formXN, fieldNN_formXN]
  case drw x y n => rw [encode, decode_drw (fieldClass_formXYN _ _ _ _), fieldX_formXYN, fieldY_formXYN, fieldN_formXYN]
  case sknp x => rw [encode, decode_sknp (fieldClass_formXN _ _ _) (fieldNN_formXN _ _ _), fieldX_formXN]
  case addI x => rw [encode, decode_addI (fieldClass_formXN _ _ _) (fieldNN_formXN _ _ _), fieldX_formXN]
  case unimplemented w => exact decode_unimplemented h

theorem encode_decode (w : Word) : encode (decode w) = w := by
  obtain rfl | hc | ⟨hc, hk⟩ | ⟨hc, hk⟩ | hu := word_cases w
  · rw [decode_ret, encode]
  · simp only [List.mem_cons, List.not_mem_nil, or_false] at hc
    rcases hc with hc | hc | hc | hc | hc | hc | hc | hc | hc
    · rw [decode_jp hc, encode, ← hc, formA_fields]
    · rw [decode_call hc, encode, ← hc, formA_fields]
    · rw [decode_se hc, encode, ← hc, formXN_fields]
    · rw [decode_sne hc, encode, ← hc, formXN_fields]
    · rw [decode_ldV hc, encode, ← hc, formXN_fields]
    · rw [decode_addV hc, encode, ← hc, formXN_fields]
    · rw [decode_ldI hc, encode, ← hc, formA_fields]
    · rw [decode_rnd hc, encode, ← hc, formXN_fields]
    · rw [decode_drw hc, encode, ← hc, formXYN_fields]
  · rw [decode_sknp hc hk, encode, ← hc, ← hk, formXN_fields]
  · rw [decode_addI hc hk, encode, ← hc, ← hk, formXN_fields]
  · rw [decode_unimplemented hu, encode]

/-! ## The words that decode to no instruction (30_encoding R86, R87) -/

/-- The raw word of the fallback is the word decoded. -/
theorem eq_of_decode_unimplemented {w v : Word} (h : decode w = .unimplemented v) : v = w := by
  rw [← encode_decode w, h, encode]

theorem decode_eq_unimplemented_iff (w : Word) : decode w = .unimplemented w ↔ inUnimplementedSpace w = true := by
  refine ⟨fun h => ?_, decode_unimplemented⟩
  have hwf := decode_wf w
  rwa [h] at hwf

/-! ## The rows of the opcode map (30_encoding R86) -/

theorem matchingMnemonics_encode {i : Instr} (h : i.wf = true) : matchingMnemonics (encode i) = i.mnemonics := by
  cases i
  case ret => exact Laws.EncodingRow.ret h
  case jp addr => exact Laws.EncodingRow.jp addr h
  case call addr => exact Laws.EncodingRow.call addr h
  case se x nn => exact Laws.EncodingRow.se x nn h
  case sne x nn => exact Laws.EncodingRow.sne x nn h
  case ldV x nn => exact Laws.EncodingRow.ldV x nn h
  case addV x nn => exact Laws.EncodingRow.addV x nn h
  case ldI addr => exact Laws.EncodingRow.ldI addr h
  case rnd x nn => exact Laws.EncodingRow.rnd x nn h
  case drw x y n => exact Laws.EncodingRow.drw x y n h
  case sknp x => exact Laws.EncodingRow.sknp x h
  case addI x => exact Laws.EncodingRow.addI x h
  case unimplemented w => exact Laws.EncodingRow.unimplemented w h

theorem matchingMnemonics_decode (w : Word) : matchingMnemonics w = (decode w).mnemonics := by
  rw [← matchingMnemonics_encode (decode_wf w), encode_decode]

theorem mnemonics_length_le_one (i : Instr) : i.mnemonics.length ≤ 1 := by
  cases i <;> simp [Instr.mnemonics]

theorem mnemonics_eq_nil_iff (i : Instr) : i.mnemonics = [] ↔ ∃ w, i = .unimplemented w := by
  cases i <;> simp [Instr.mnemonics]

/-! ## The two formulations of nn (30_encoding R82) -/

/-- The address field is X over NN, and X shifted left by 8 is X over zeros, so the XOR cancels X. -/
theorem nnByXor_eq (w : Word) : nnByXor w = 0#4 ++ fieldNN w := by
  have haddr : fieldAddr w = fieldX w ++ fieldNN w :=
    (BitVec.extractLsb'_append_extractLsb'_eq_extractLsb' (x := w) (start₁ := 0) (len₁ := 8) rfl).symm
  have hshift : (fieldX w).setWidth 12 <<< 8 = fieldX w ++ 0#8 := by
    rw [← BitVec.setWidth_eq (fieldX w ++ 0#8), BitVec.setWidth_append_eq_shiftLeft_setWidth_or, BitVec.setWidth_zero,
      BitVec.or_zero]
  rw [nnByXor, haddr, hshift, BitVec.xor_append, BitVec.xor_self, BitVec.xor_zero]

/-! ## The forms as ORs of shifted fields (30_encoding R90) -/

theorem formA_eq_or (c : BitVec 4) (addr : Addr12) : formA c addr = c.setWidth 16 <<< 12 ||| addr.setWidth 16 := by
  rw [← BitVec.setWidth_eq (formA c addr)]
  exact BitVec.setWidth_append_eq_shiftLeft_setWidth_or

theorem formXN_eq_or (c : BitVec 4) (x : RegIx) (nn : Byte) :
    formXN c x nn = c.setWidth 16 <<< 12 ||| x.setWidth 16 <<< 8 ||| nn.setWidth 16 := by
  rw [← BitVec.setWidth_eq (formXN c x nn)]
  exact BitVec.setWidth_append_append_eq_shiftLeft_setWidth_or

theorem formXYN_eq_or (c x y n : BitVec 4) :
    formXYN c x y n = c.setWidth 16 <<< 12 ||| x.setWidth 16 <<< 8 ||| y.setWidth 16 <<< 4 ||| n.setWidth 16 := by
  rw [← BitVec.setWidth_eq (formXYN c x y n)]
  exact BitVec.setWidth_append_append_append_eq_shiftLeft_setWidth_or

/-- Format XK, the fixed low byte written with the class. -/
theorem formXN_eq_or_fixed (c : BitVec 4) (x : RegIx) (k : Byte) :
    formXN c x k = (c.setWidth 16 <<< 12 ||| k.setWidth 16) ||| x.setWidth 16 <<< 8 := by
  rw [formXN_eq_or, BitVec.or_assoc, BitVec.or_comm (x.setWidth 16 <<< 8), ← BitVec.or_assoc]

/-! ## The obligations, by tier -/

/-- Settles O42: `decode_encode`, instruction by instruction from the fields of its form. -/
theorem decodeOfEncodeIsTheInstruction : Obligations.DecodeOfEncodeIsTheInstruction := fun _ => decode_encode

/-- Settles O43: `encode_decode`, class by class, since a word is put together from its fields. -/
theorem encodeOfDecodeIsTheWord : Obligations.EncodeOfDecodeIsTheWord := fun w => ⟨decode_wf w, encode_decode w⟩

/-- Settles O44: the rows a word matches are those of the instruction it decodes to, at most one. -/
theorem opcodeMapHasOneRowPerWord : Obligations.OpcodeMapHasOneRowPerWord := by
  refine ⟨by decide, fun w => ?_⟩
  rw [matchingMnemonics_decode, mnemonics_eq_nil_iff]
  refine ⟨mnemonics_length_le_one _, rfl, ?_, fun h => ⟨w, h⟩⟩
  rintro ⟨v, hv⟩
  exact eq_of_decode_unimplemented hv ▸ hv

/-- Settles O45: the fallback is decoded exactly in the unimplemented space, whose definition is the class table. -/
theorem unimplementedSpaceByClass : Obligations.UnimplementedSpaceByClass := by
  intro w
  have hclass0 : w.toNat / 0x1000 = 0 ↔ w.toNat < 0x1000 := by omega
  rw [decode_eq_unimplemented_iff]
  simp [inUnimplementedSpace, hclass0, or_assoc]

/-- Settles O46: the XOR leaves NN under four zero bits. -/
theorem immediateByXorIsTheLowByte : Obligations.ImmediateByXorIsTheLowByte := by
  refine fun w => ⟨?_, fieldNN_toNat w⟩
  rw [nnByXor_eq, append_toNat, BitVec.toNat_ofNat]
  simp

/-- Settles O47: the word of each form is the OR of its fields, each shifted to its place. -/
theorem encoderGivesTheTableWords : Obligations.EncoderGivesTheTableWords :=
  ⟨fun a => ⟨formA_eq_or 0x1#4 a, formA_eq_or 0x2#4 a, formA_eq_or 0xA#4 a⟩,
    fun x n => ⟨formXN_eq_or 0x3#4 x n, formXN_eq_or 0x4#4 x n, formXN_eq_or 0x6#4 x n, formXN_eq_or 0x7#4 x n,
      formXN_eq_or 0xC#4 x n⟩,
    formXYN_eq_or 0xD#4,
    fun x => ⟨formXN_eq_or_fixed 0xE#4 x 0xA1#8, formXN_eq_or_fixed 0xF#4 x 0x1E#8⟩, rfl⟩

/-- Settles O48: each word's class, and for RET and the fallback the whole word, selects its instruction. -/
theorem sampleWordsDecode : Obligations.SampleWordsDecode :=
  ⟨decode_ret, decode_jp rfl, decode_se rfl, decode_ldV rfl, decode_ldI rfl, decode_drw rfl, decode_unimplemented rfl⟩

end Sys2Proof.Machine

/-! # The cycle, the clock and the step (40_cycle) -/

namespace Sys2Proof.Machine

/-! ## The fetch (40_cycle R102) -/

theorem fetchWord_of_ge {s : State} (hpc : 0xFFF ≤ s.pc.toNat) : fetchWord s = none := by
  obtain ⟨-, h⟩ | ⟨h, -⟩ := fetchWord_cases s
  · exact h
  · omega

/-- The fetch looks at the two bytes at pc and at nothing else of memory (40_cycle R106). -/
theorem fetchWord_withMemoryAndPaused {s : State} {m : Memory} (b : Bool)
    (hhi : m.read s.pc.toNat = s.byteAt s.pc.toNat) (hlo : m.read (s.pc.toNat + 1) = s.byteAt (s.pc.toNat + 1)) :
    fetchWord (withMemoryAndPaused m b s) = fetchWord s := by
  change memRead2 m s.pc = memRead2 s.mem s.pc
  rw [memRead2, hhi, hlo]
  rfl

/-! ## The host's cycle, clock and step, by the state they start from (40_cycle R107, R108) -/

theorem runCycle_of_no_fetch {s : State} (hf : fetchWord s = none) : runCycle s = (.fetchError s.pc, s) :=
  runCycle_of_fetchError (cycle_of_no_fetch hf)

theorem runCycle_of_exec {s t : State} {w : Word} (hf : fetchWord s = some w)
    (he : exec (decode w) (advancePc s) = .next t) : runCycle s = (if t.halted then .fault t.fault else .ok, t) :=
  runCycle_of_next ((cycle_of_fetch hf).trans he)

theorem step_of_paused {s : State} (hp : s.paused = true) : step s = .next s := by
  simp [step, clockOutcome, hp]

theorem step_of_no_fetch {s : State} (hp : s.paused = false) (hh : s.halted = false) (hf : fetchWord s = none) :
    step s = .fault (.fetchError s.pc) := by
  simp [step, clockOutcome, hp, hh, cycle_of_no_fetch hf]

theorem opClock_of_paused {s : State} (hp : s.paused = true) : opClock s = (.ok, s) := by
  simp [opClock, hp]

theorem opClock_of_halted {s : State} (hp : s.paused = false) (hh : s.halted = true) : opClock s = (.fault s.fault, s) := by
  simp [opClock, hp, hh]

theorem opClock_of_running {s : State} (hp : s.paused = false) (hh : s.halted = false) : opClock s = runCycle s := by
  simp [opClock, hp, hh]

theorem opStep_of_halted {s : State} (hh : s.halted = true) : opStep s = (.fault s.fault, s) := by
  simp [opStep, forceCycle, hh]

theorem opStep_of_running {s : State} (hh : s.halted = false) :
    opStep s = ((runCycle s).1, setPaused s.paused (runCycle s).2) := by
  simp [opStep, forceCycle, hh, setPaused]

/-- `step()` puts the flag back on every outcome (the spec's decision D14). -/
@[simp] theorem opStep_paused (s : State) : (opStep s).2.paused = s.paused := rfl

@[simp] theorem setPaused_self (s : State) : setPaused s.paused s = s := rfl

theorem opStep_of_no_fetch {s : State} (hh : s.halted = false) (hf : fetchWord s = none) :
    opStep s = (.fetchError s.pc, s) := by
  rw [opStep_of_running hh, runCycle_of_no_fetch hf, setPaused_self]

/-- What `step()` leaves is what the fetched instruction leaves: no handler writes the flag that is put back. -/
theorem opStep_of_exec {s t : State} {w : Word} (hh : s.halted = false) (hf : fetchWord s = some w)
    (he : exec (decode w) (advancePc s) = .next t) : opStep s = (if t.halted then .fault t.fault else .ok, t) := by
  have hp : t.paused = s.paused := (execEffect_of_exec he).paused_eq
  rw [opStep_of_running hh, runCycle_of_exec hf he, ← hp, setPaused_self]

/-- The step of the machine and the host's clock take the same four courses. -/
theorem step_opClock_cases (s : State) :
    (s.paused = true ∧ step s = .next s ∧ opClock s = (.ok, s))
      ∨ (s.paused = false ∧ step s = .fault (.halted s.fault) ∧ opClock s = (.fault s.fault, s))
      ∨ (s.paused = false ∧ step s = .fault (.fetchError s.pc) ∧ opClock s = (.fetchError s.pc, s))
      ∨ (s.paused = false ∧ ∃ t, step s = .next t ∧ opClock s = (if t.halted then .fault t.fault else .ok, t)) := by
  obtain ⟨hp, hs⟩ | ⟨hp, hh, hs⟩ | ⟨hp, hh, hs⟩ := step_cases s
  · exact .inl ⟨hp, hs, opClock_of_paused hp⟩
  · exact .inr (.inl ⟨hp, hs, opClock_of_halted hp hh⟩)
  · rw [hs, opClock_of_running hp hh]
    obtain ⟨-, hc⟩ | ⟨w, -, -, hc⟩ := cycle_cases s
    · exact .inr (.inr (.inl ⟨hp, hc, runCycle_of_fetchError hc⟩))
    · obtain ⟨t, he⟩ := exec_next (decode w) (advancePc s)
      exact .inr (.inr (.inr ⟨hp, t, hc.trans he, runCycle_of_next (hc.trans he)⟩))

/-! ## The run-state flag and memory do not steer the cycle (40_cycle R106, R108) -/

theorem ExecEffect.of_setPaused {i : Instr} {s t : State} (h : ExecEffect s i t) (b : Bool) :
    ExecEffect (setPaused b s) i (setPaused b t) := by
  have ht : withMemoryAndPaused s.mem b t = setPaused b t := by
    rw [← h.mem_eq]
    rfl
  exact ht ▸ h.of_withMemoryAndPaused s.mem b

/-- The host's cycle reports the same with another flag, and leaves the same state with that flag. -/
theorem runCycle_setPaused (b : Bool) (s : State) :
    runCycle (setPaused b s) = ((runCycle s).1, setPaused b (runCycle s).2) := by
  obtain ⟨hpc, hr⟩ | ⟨w, t, -, hf, he, hr⟩ := runCycle_cases s <;> rw [hr]
  · exact runCycle_of_no_fetch (s := setPaused b s) (fetchWord_of_ge hpc)
  · exact runCycle_of_exec (s := setPaused b s) hf (exec_of_execEffect ((execEffect_of_exec he).of_setPaused b))

/-! ## Which handlers fault (40_cycle R105, 60_exceptions R202-R204) -/

/-- The three causes of a fault that a handler can meet. -/
def FaultCause (s : State) (i : Instr) : Prop :=
  (i = .ret ∧ s.S = []) ∨ (∃ addr, i = .call addr ∧ s.S.length = s.env.stackCapacity) ∨ ∃ w, i = .unimplemented w

/-- A handler with a cause enters a fault with its own word and address, and every other one keeps the record. -/
theorem ExecEffect.fault_cases {i : Instr} {s t : State} (h : ExecEffect s i t) :
    (FaultCause s i ∧ ∃ code, code ≠ .noFault ∧ t = fatal code (encode i) s.insnAddr s)
      ∨ (¬ FaultCause s i ∧ t.fault = s.fault) := by
  cases h
  case retUnderflow hS => exact .inl ⟨.inl ⟨rfl, hS⟩, .stackUnderflow, by decide, rfl⟩
  case callOverflow addr hS => exact .inl ⟨.inr (.inl ⟨addr, rfl, hS⟩), .stackOverflow, by decide, rfl⟩
  case unimplemented w => exact .inl ⟨.inr (.inr ⟨w, rfl⟩), .unimplemented, by decide, rfl⟩
  case retPop rest r hS => exact .inr ⟨by simp [FaultCause, hS], rfl⟩
  case callPush addr hS => exact .inr ⟨by simp [FaultCause, hS], rfl⟩
  all_goals exact .inr ⟨by simp [FaultCause], by simp⟩

/-! ## Host register indices in range (40_cycle R113) -/

theorem opReadRegister_toNat (x : RegIx) (s : State) : opReadRegister x.toNat s = (.byte (s.readV x), s) := by
  obtain ⟨-, h⟩ | ⟨hx, -⟩ := opReadRegister_cases x.toNat s
  · rw [h, BitVec.ofNat_toNat, BitVec.setWidth_eq]
  · omega

theorem opWriteRegister_toNat (x : RegIx) (v : Byte) (s : State) : opWriteRegister x.toNat v s = (.done, writeV x v s) := by
  obtain ⟨-, h⟩ | ⟨hx, -⟩ := opWriteRegister_cases x.toNat v s
  · rw [h, BitVec.ofNat_toNat, BitVec.setWidth_eq]
  · omega

/-! ## The obligations, by tier -/

/-- Settles O6, by the state the operation starts from: paused, halted, or with a fetch that succeeds or fails. -/
theorem clockHonoursPauseAndStepKeepsIt : Obligations.ClockHonoursPauseAndStepKeepsIt := by
  refine fun s => ⟨fun hp => ⟨opClock_of_paused hp, step_of_paused hp⟩, opStep_paused s, fun w hh hf => ?_,
    opStep_of_halted, opStep_of_no_fetch⟩
  obtain ⟨t, he⟩ := exec_next (decode w) (advancePc s)
  rw [perform, opStep_of_exec hh hf he, he]

/-- Settles O7: both operations report a halted core's record, and otherwise run the same cycle, which the flag does not
steer. -/
theorem stepIsTheClockOfTheUnpausedCore : Obligations.StepIsTheClockOfTheUnpausedCore := by
  intro s
  change opStep s = ((opClock (setPaused false s)).1, setPaused s.paused (opClock (setPaused false s)).2)
  have hp : (setPaused false s).paused = false := setPaused_paused s false
  cases hh : s.halted
  · rw [opStep_of_running hh, opClock_of_running hp hh, runCycle_setPaused]
    rfl
  · rw [opStep_of_halted hh, opClock_of_halted hp hh]
    rfl

/-- Settles O8: the two take the same course, and each course fixes what both answer. -/
theorem clockReportsWhatTheMachineStepDoes : Obligations.ClockReportsWhatTheMachineStepDoes := by
  intro s
  obtain ⟨hp, hs, hc⟩ | ⟨hp, hs, hc⟩ | ⟨hp, hs, hc⟩ | ⟨hp, t, hs, hc⟩ := step_opClock_cases s <;>
    simp [perform, hp, hs, hc]

/-- Settles O25: with a cause the handler's effect is a fault entry on a core with no record yet, and without one the record
stays empty. -/
theorem faultsArePrecise : Obligations.FaultsArePrecise := by
  intro i s hh
  obtain ⟨t, ht⟩ := exec_next i s
  have hno := (halted_eq_false_iff s).1 hh
  refine ⟨t, ht, ?_⟩
  change (t.halted = true ↔ FaultCause s i) ∧ _
  obtain ⟨hcause, code, hcode, rfl⟩ | ⟨hcause, hfault⟩ := (execEffect_of_exec ht).fault_cases
  · rw [fatal_of_noFault s _ _ _ hno]
    simp [State.halted, hcode, hcause]
  · have hth : t.halted = false := by rw [State.halted, hfault]; exact hh
    simp [hth, hcause, hfault]

/-- Settles O31: the same word is fetched, and its handler's effect is the same on everything but memory. -/
theorem stepLooksOnlyAtTheFetchedBytes : Obligations.StepLooksOnlyAtTheFetchedBytes := by
  intro s t m hhi hlo h
  obtain ⟨hp, rfl⟩ | ⟨hp, hh, w, -, hf, he⟩ := step_next_cases h
  · exact step_of_paused hp
  · have heff := execEffect_of_exec he
    have hpt : t.paused = s.paused := heff.paused_eq
    calc step (withMemoryAndPaused m s.paused s)
      _ = exec (decode w) (withMemoryAndPaused m s.paused (advancePc s)) :=
        step_of_fetch hp hh ((fetchWord_withMemoryAndPaused _ hhi hlo).trans hf)
      _ = .next (withMemoryAndPaused m s.paused t) := exec_of_execEffect (heff.of_withMemoryAndPaused m s.paused)
      _ = .next { t with mem := m } := by rw [← hpt, withMemoryAndPaused]

/-- Settles O4: past 0xFFE there is no word to fetch, and the cycle ends there. -/
theorem fetchPastMemoryChangesNothing : Obligations.FetchPastMemoryChangesNothing := by
  intro s hpc
  have hf := fetchWord_of_ge hpc
  exact ⟨hf, fun hp hh => ⟨step_of_no_fetch hp hh hf, (opClock_of_running hp hh).trans (runCycle_of_no_fetch hf)⟩,
    fun hh => opStep_of_no_fetch hh hf⟩

/-- Settles O5: the two bytes at pc are the word fetched, and its instruction runs on the advanced state. -/
theorem stepRunsTheDecodedInstruction : Obligations.StepRunsTheDecodedInstruction := by
  intro s i hp hh hpc hi
  rw [decodeBytes] at hi
  obtain rfl : decode (wordOfBytes (s.byteAt s.pc.toNat) (s.byteAt (s.pc.toNat + 1))) = i := by simpa using hi
  exact ⟨decode_wf _, step_of_fetch hp hh (fetchWord_of_le hpc), rfl, insnAddr_advancePc s, rfl, rfl, rfl, fun _ => rfl,
    fun _ => rfl, rfl, rfl⟩

/-- Settles O9: each operation is `setPaused`. -/
theorem pauseOperationsWriteOnlyTheFlag : Obligations.PauseOperationsWriteOnlyTheFlag := fun _ => ⟨rfl, rfl, rfl⟩

/-- Settles O40: an index or an address in range is the field's own. -/
theorem accessorsTouchOneField : Obligations.AccessorsTouchOneField := fun s =>
  ⟨rfl, rfl, fun _ => rfl, fun _ ha => opReadMemory_of_le s ha, fun x => opReadRegister_toNat x s, fun x v =>
    ⟨writeV x v s, opWriteRegister_toNat x v s, readV_writeV_same x v s, fun _ hy => readV_writeV_ne v s hy, fun _ => rfl,
      ⟨rfl, rfl⟩, rfl, rfl, rfl, rfl⟩⟩

end Sys2Proof.Machine

/-! # Control transfer (41_flow) -/

namespace Sys2Proof.Machine

/-! ## The one word of RET (30_encoding R86) -/

theorem decode_eq_ret_iff (w : Word) : decode w = .ret ↔ w = 0x00EE#16 := by
  constructor
  · intro h
    rw [← encode_decode w, h, encode]
  · rintro rfl
    exact decode_ret

/-! ## Fault entry (60_exceptions R207) -/

/-- On a core that is not halted yet the record is the new fault's. -/
theorem fatal_fault_of_running {s : State} (code : FaultCode) (word addr : Word) (hh : s.halted = false) :
    (fatal code word addr s).fault = ⟨code, word, addr⟩ := by
  rw [fatal_of_noFault s code word addr ((halted_eq_false_iff s).1 hh)]

/-- After a fault entry the core is halted, by the new record or by the first one. -/
theorem fatal_halted {code : FaultCode} (word addr : Word) (s : State) (hc : code ≠ .noFault) :
    (fatal code word addr s).halted = true := by
  rw [halted_eq_true_iff]
  by_cases hs : s.fault.code = .noFault
  · rwa [fatal_of_noFault s code word addr hs]
  · rwa [fatal_of_fault s code word addr hs]

/-! ## Where a transfer leads -/

/-- The pc a handler starts from is the one after its instruction (40_cycle R103). -/
theorem insnAddr_add_two (s : State) : s.insnAddr + 2 = s.pc :=
  BitVec.sub_add_cancel s.pc 2

/-- Where the bytes below 0x200 are 0x00, a fetch of two of them gives 0x0000 (20_memory R52). -/
theorem fetchWord_of_zero_low {s : State} (hlow : ∀ a : Nat, a < 0x200 → s.byteAt a = 0#8) (hpc : s.pc.toNat ≤ 0x1FE) :
    fetchWord s = some 0x0000#16 := by
  rw [fetchWord_of_le (by omega), hlow _ (by omega), hlow _ (by omega)]
  rfl

/-! ## The obligations, by tier -/

/-- Settles O10: a stack is empty or has a top, and RET has one effect for each. -/
theorem retPopsOrUnderflows : Obligations.RetPopsOrUnderflows := by
  refine ⟨decode_eq_ret_iff, fun s rest r hS => ?_, fun s hS hh => ?_⟩
  · refine ⟨_, exec_of_execEffect (.retPop rest r hS), rfl, rfl, rfl, rfl, fun _ => rfl, fun _ => rfl, ⟨rfl, rfl⟩, ?_⟩
    rintro rfl
    exact fetchWord_of_ge (show 0xFFF ≤ (0x1000#16).toNat by decide)
  · exact ⟨_, exec_of_execEffect (.retUnderflow hS), fatal_fault_of_running _ _ _ hh, fatal_halted _ _ s (by decide),
      fatal_pc s _ _ _, (fatal_S s _ _ _).trans hS, fatal_I s _ _ _, fatal_env s _ _ _, fatal_paused s _ _ _,
      fatal_readV s _ _ _, fatal_byteAt s _ _ _⟩

/-- Settles O12: class 2 is CALL's, and on a stack with room its effect is the push and the jump. -/
theorem callPushesAndJumps : Obligations.CallPushesAndJumps :=
  ⟨fun w hw => decode_call ((and_classMask_eq_iff w 0x2#4).1 hw), fun addr _ hroom =>
    ⟨_, exec_of_execEffect (.callPush addr hroom), rfl, zextAddr_toNat addr, rfl, rfl, fun _ => rfl, fun _ => rfl, rfl, rfl⟩⟩

/-- Settles O13: on a full stack CALL's effect is the fault entry with the word of its form. -/
theorem callOnAFullStackOverflows : Obligations.CallOnAFullStackOverflows := by
  intro addr s hfull hh
  have hfault := fatal_fault_of_running .stackOverflow (formA 0x2#4 addr) s.insnAddr hh
  exact ⟨_, exec_of_execEffect (.callOverflow addr hfull), by rw [hfault], by rw [hfault, formA_toNat]; rfl, by rw [hfault],
    fatal_halted _ _ s (by decide), fatal_pc s _ _ _, fatal_S s _ _ _, fatal_I s _ _ _, fatal_env s _ _ _,
    fatal_paused s _ _ _, fatal_readV s _ _ _, fatal_byteAt s _ _ _⟩

/-- Settles O14: the CALL leaves its advanced pc on top of the old stack, and the RET pops exactly that. -/
theorem callThenRetReturnsAfterTheCall : Obligations.CallThenRetReturnsAfterTheCall := by
  intro addr s t u hroom hcall hS
  cases execEffect_of_exec hcall with
  | callOverflow _ hfull => exact absurd hfull hroom
  | callPush => exact ⟨_, exec_of_execEffect (.retPop s.S s.pc hS), (insnAddr_add_two s).symm, rfl⟩

/-- Settles O11: class 1 is JP's, and its effect is the jump; the corner cases follow from the target alone. -/
theorem jpJumps : Obligations.JpJumps := by
  refine ⟨fun w hw => decode_jp ((and_classMask_eq_iff w 0x1#4).1 hw), fun addr s => ?_⟩
  have htarget : (jumpTo (zextAddr addr) s).pc.toNat = addr.toNat := zextAddr_toNat addr
  refine ⟨_, exec_of_execEffect (.jp addr), htarget, rfl, rfl, rfl, fun _ => rfl, fun _ => rfl, ⟨rfl, rfl⟩,
    fun hself => ?_, ?_, fun hlow haddr => fetchWord_of_zero_low hlow (htarget.trans_le haddr)⟩
  · have hpc : zextAddr addr = s.insnAddr := BitVec.eq_of_toNat_eq (htarget.trans hself.symm)
    rw [hpc, jumpTo]
  · rintro rfl
    exact fetchWord_of_ge htarget.ge

end Sys2Proof.Machine

/-! # Conditional skips (42_skip) -/

namespace Sys2Proof.Machine

/-! ## The conditions -/

theorem condEqual_eq_true_iff (v nn : Byte) : condEqual v nn = true ↔ v = nn := beq_iff_eq

theorem condNotEqual_eq_true_iff (v nn : Byte) : condNotEqual v nn = true ↔ v ≠ nn := bne_iff_ne

theorem condKeyNotPressed_eq_true_iff (k : KeyResult) (v : Byte) : condKeyNotPressed k v = true ↔ k ≠ .key v := bne_iff_ne

/-! ## What a skip does -/

/-- A skip under a condition that decides `p`: one width further exactly when `p` holds. -/
theorem skipIf_pc_of_iff {c : Bool} {p : Prop} (hc : c = true ↔ p) (s : State) :
    (p → (skipIf c s).pc = s.pc + 2) ∧ (¬ p → (skipIf c s).pc = s.pc) := by
  rw [← hc, skipIf_pc]
  exact ⟨fun h => if_pos h, fun h => if_neg h⟩

/-- No skip changes anything but pc. -/
theorem skipIf_frame (c : Bool) (s : State) :
    (skipIf c s).I = s.I ∧ (skipIf c s).S = s.S ∧ (skipIf c s).env = s.env
      ∧ SameRegisters s (skipIf c s) ∧ SameMemory s (skipIf c s) ∧ SameControl s (skipIf c s) :=
  ⟨skipIf_I s c, skipIf_S s c, skipIf_env s c, skipIf_readV s c, skipIf_byteAt s c, skipIf_paused s c, skipIf_fault s c⟩

/-- After an instruction at 0xFFE, one width further is beyond memory (40_cycle R102). -/
theorem no_fetch_of_skip_at_end {s t : State} (ht : t.pc = s.pc + 2) (ha : s.insnAddr = 0x0FFE#16) :
    t.pc = 0x1002#16 ∧ fetchWord t = none := by
  have hpc : t.pc = 0x1002#16 := by
    rw [ht, ← insnAddr_add_two, ha]
    rfl
  exact ⟨hpc, fetchWord_of_ge (by rw [hpc]; decide)⟩

/-- SKNP's query and its skip touch different fields, so the query may as well come last. -/
theorem exec_sknp (x : RegIx) (s : State) :
    exec (.sknp x) s = .next (keyQuery (sknpWith (Config.keyAnswer s.env.keyDraws) x s)).2 := by
  rw [exec_of_execEffect (.sknp x), keyQuery_answer, sknpWith]
  cases condKeyNotPressed (Config.keyAnswer s.env.keyDraws) (s.readV x) <;> rfl

/-! ## The obligations, by tier -/

/-- Settles O15: class 3 is SE's, and its effect is a skip under equality. -/
theorem seSkipsWhenEqual : Obligations.SeSkipsWhenEqual := by
  refine ⟨fun w hw => decode_se ((and_classMask_eq_iff w 0x3#4).1 hw), fun x nn s => ?_⟩
  obtain ⟨htaken, hnot⟩ := skipIf_pc_of_iff (condEqual_eq_true_iff (s.readV x) nn) s
  obtain ⟨hI, hS, henv, hV, hmem, hctl⟩ := skipIf_frame (condEqual (s.readV x) nn) s
  exact ⟨_, exec_of_execEffect (.se x nn), htaken, hnot, hI, hS, henv, hV, hmem, hctl,
    fun h => no_fetch_of_skip_at_end (htaken h)⟩

/-- Settles O16: class 4 is SNE's, and its condition is the negation of the one SE skips under. -/
theorem sneSkipsWhenDifferent : Obligations.SneSkipsWhenDifferent := by
  refine ⟨fun w hw => decode_sne ((and_classMask_eq_iff w 0x4#4).1 hw), fun x nn s => ?_⟩
  obtain ⟨htaken, hnot⟩ := skipIf_pc_of_iff (condNotEqual_eq_true_iff (s.readV x) nn) s
  obtain ⟨hseTaken, hseNot⟩ := skipIf_pc_of_iff (condEqual_eq_true_iff (s.readV x) nn) s
  obtain ⟨hI, hS, henv, hV, hmem, hctl⟩ := skipIf_frame (condNotEqual (s.readV x) nn) s
  exact ⟨_, _, exec_of_execEffect (.sne x nn), exec_of_execEffect (.se x nn), fun h => ⟨htaken h, hseNot h⟩,
    fun h => ⟨hnot (not_not_intro h), hseTaken h⟩, hI, hS, henv, hV, hmem, hctl,
    fun h => no_fetch_of_skip_at_end (htaken h)⟩

/-- Settles O17: the answer that names the register's value is the only one without a skip, and "none" names no value (D9);
the query adds its count to what the skip leaves. -/
theorem sknpSkipsUnlessTheKeyIsPressed : Obligations.SknpSkipsUnlessTheKeyIsPressed := by
  refine ⟨fun w hw => ?_, fun k x s => ?_, fun x s => ?_⟩
  · obtain ⟨hclass, hlow⟩ := (and_classLowMask_eq_iff w 0xE#4 0xA1#8).1 hw
    exact decode_sknp hclass hlow
  · obtain ⟨htaken, hnot⟩ := skipIf_pc_of_iff (condKeyNotPressed_eq_true_iff k (s.readV x)) s
    refine ⟨fun h => hnot (not_not_intro h), htaken, ?_⟩
    rintro rfl
    exact htaken nofun
  · obtain ⟨hI, hS, henv, hV, hmem, hctl⟩ :=
      skipIf_frame (condKeyNotPressed (Config.keyAnswer s.env.keyDraws) (s.readV x)) s
    exact ⟨_, exec_sknp x s, rfl, by rw [keyQuery_env, sknpWith, henv], hI, hS, hV, hmem, hctl⟩

end Sys2Proof.Machine

/-! # Register operations (43_register) -/

namespace Sys2Proof.Machine

/-! ## What is written -/

theorem sum8_toNat (a b : Byte) : (sum8 a b).toNat = (a.toNat + b.toNat) % 256 := BitVec.toNat_add a b

/-- A masked byte has no bit outside the mask. -/
theorem maskByte_and_not (r nn : Byte) : maskByte r nn &&& ~~~nn = 0#8 := by
  rw [maskByte, BitVec.and_assoc, BitVec.and_not_self]
  exact BitVec.and_zero

theorem maskByte_zero (r : Byte) : maskByte r 0x00#8 = 0#8 := BitVec.and_zero

theorem maskByte_allOnes (r : Byte) : maskByte r 0xFF#8 = r := BitVec.and_allOnes

theorem rndWith_readV_same (r : Byte) (x : RegIx) (nn : Byte) (s : State) : (rndWith r x nn s).readV x = maskByte r nn :=
  readV_writeV_same x (maskByte r nn) s

/-! ## What is left unchanged -/

/-- A register write changes nothing but its register. -/
theorem writeV_frame (x : RegIx) (v : Byte) (s : State) :
    (writeV x v s).pc = s.pc ∧ (writeV x v s).I = s.I ∧ (writeV x v s).S = s.S ∧ (writeV x v s).env = s.env
      ∧ SameRegistersBut x s (writeV x v s) ∧ SameMemory s (writeV x v s) ∧ SameControl s (writeV x v s) :=
  ⟨writeV_pc s x v, writeV_I s x v, writeV_S s x v, writeV_env s x v, fun _ hy => readV_writeV_ne v s hy,
    writeV_byteAt s x v, writeV_paused s x v, writeV_fault s x v⟩

/-- RND's draw and its write touch different fields, so the draw may as well come last. -/
theorem exec_rnd (x : RegIx) (nn : Byte) (s : State) :
    exec (.rnd x nn) s = .next (drawByte (rndWith (Config.randomByte s.env.randomDraws) x nn s)).2 :=
  exec_of_execEffect (.rnd x nn)

/-! ## The obligations, by tier -/

/-- Settles O19: class 7 is ADD's, and its effect is one register write, of the sum; VF is one of the other registers. -/
theorem addVWrapsWithoutCarry : Obligations.AddVWrapsWithoutCarry := by
  refine ⟨fun w hw => decode_addV ((and_classMask_eq_iff w 0x7#4).1 hw), fun x nn s => ?_⟩
  obtain ⟨hpc, hI, hS, henv, hV, hmem, hctl⟩ := writeV_frame x (sum8 (s.readV x) nn) s
  exact ⟨_, exec_of_execEffect (.addV x nn), by rw [readV_writeV_same, sum8_toNat], hpc, hI, hS, henv, hV, hmem, hctl,
    fun hx => hV 0xF#4 hx.symm⟩

/-- Settles O20: for every byte the register holds the masked one (D11), and the draw adds its count to what the write
leaves. -/
theorem rndMasksTheDraw : Obligations.RndMasksTheDraw := by
  refine ⟨fun w hw => decode_rnd ((and_classMask_eq_iff w 0xC#4).1 hw), fun r x nn s => ?_, fun x nn s => ?_⟩
  · rw [rndWith_readV_same]
    refine ⟨rfl, maskByte_and_not r nn, ?_, ?_⟩
    · rintro rfl
      exact maskByte_zero r
    · rintro rfl
      exact maskByte_allOnes r
  · obtain ⟨hpc, hI, hS, henv, hV, hmem, hctl⟩ := writeV_frame x (maskByte (Config.randomByte s.env.randomDraws) nn) s
    exact ⟨_, exec_rnd x nn s, rfl, by rw [drawByte_env, rndWith, henv], hpc, hI, hS, hV, hmem, hctl⟩

/-- Settles O18: class 6 is LD's, and its effect is one register write, of the immediate. -/
theorem ldVLoadsTheImmediate : Obligations.LdVLoadsTheImmediate :=
  ⟨fun w hw => decode_ldV ((and_classMask_eq_iff w 0x6#4).1 hw), fun x nn s =>
    ⟨_, exec_of_execEffect (.ldV x nn), readV_writeV_same x nn s, writeV_frame x nn s⟩⟩

end Sys2Proof.Machine

/-! # Address register operations (44_address) -/

namespace Sys2Proof.Machine

/-! ## What is written -/

/-- A 12-bit address leaves bits 15:12 of the word clear (44_address R160). -/
theorem zextAddr_le_fff (addr : Addr12) : (zextAddr addr).toNat ≤ 0x0FFF := by
  rw [zextAddr_toNat]
  exact Nat.le_of_lt_succ addr.isLt

/-- The 16-bit sum with a byte wraps at 65536 (the spec's decision D8). -/
theorem sum16_zextByte_toNat (a : Word) (v : Byte) : (sum16 a (zextByte v)).toNat = (a.toNat + v.toNat) % 65536 := by
  rw [← zextByte_toNat v]
  exact BitVec.toNat_add a (zextByte v)

/-! ## What is left unchanged -/

/-- A write of I changes nothing but I. -/
theorem writeI_frame (v : Word) (s : State) :
    (writeI v s).pc = s.pc ∧ (writeI v s).S = s.S ∧ (writeI v s).env = s.env
      ∧ SameRegisters s (writeI v s) ∧ SameMemory s (writeI v s) ∧ SameControl s (writeI v s) :=
  ⟨writeI_pc s v, writeI_S s v, writeI_env s v, writeI_readV s v, writeI_byteAt s v, writeI_paused s v, writeI_fault s v⟩

/-! ## The obligations, by tier -/

/-- Settles O21: class A is LD I's, and its effect is one write of I, of the zero-extended address. -/
theorem ldILoadsTheAddress : Obligations.LdILoadsTheAddress :=
  ⟨fun w hw => decode_ldI ((and_classMask_eq_iff w 0xA#4).1 hw), fun addr s =>
    ⟨_, exec_of_execEffect (.ldI addr), zextAddr_toNat addr, zextAddr_le_fff addr, writeI_frame (zextAddr addr) s⟩⟩

/-- Settles O22: class F with low byte 0x1E is ADD I's, and its effect is one write of I, of the sum modulo 65536 (D8). -/
theorem addIWrapsAtSixteenBits : Obligations.AddIWrapsAtSixteenBits := by
  refine ⟨fun w hw => ?_, fun x s => ?_⟩
  · obtain ⟨hclass, hlow⟩ := (and_classLowMask_eq_iff w 0xF#4 0x1E#8).1 hw
    exact decode_addI hclass hlow
  · exact ⟨_, exec_of_execEffect (.addI x), sum16_zextByte_toNat s.I (s.readV x), writeI_frame _ s⟩

end Sys2Proof.Machine

/-! # Draw stub (45_draw) -/

namespace Sys2Proof.Machine

/-- Settles O23: class D is DRW's, and its effect relates every state to itself (D18). -/
theorem drwOnlyAdvances : Obligations.DrwOnlyAdvances :=
  ⟨fun w hw => decode_drw ((and_classMask_eq_iff w 0xD#4).1 hw), fun x y n _ => exec_of_execEffect (.drw x y n)⟩

end Sys2Proof.Machine

/-! # The failures: who raises them, what they record, and how long they last (60_exceptions) -/

namespace Sys2Proof.Machine

/-! ## Fault entry (60_exceptions R207) -/

/-- Fault entry changes the record alone. -/
theorem fatal_eq_withFault (code : FaultCode) (word addr : Word) (s : State) :
    fatal code word addr s = { s with fault := (fatal code word addr s).fault } := by
  unfold fatal
  split <;> rfl

/-- The first record stays. -/
theorem fatal_of_halted {s : State} (code : FaultCode) (word addr : Word) (hh : s.halted = true) :
    fatal code word addr s = s :=
  fatal_of_fault s code word addr ((halted_eq_true_iff s).1 hh)

/-- What the record is after a fault entry: on a core that is halted already, the first one. -/
theorem fatal_record {code : FaultCode} (word addr : Word) (s : State) (hc : code ≠ .noFault) :
    (fatal code word addr s).halted = true
      ∧ (s.halted = false → (fatal code word addr s).fault = ⟨code, word, addr⟩)
      ∧ (s.halted = true → (fatal code word addr s).fault = s.fault) :=
  ⟨fatal_halted word addr s hc, fatal_fault_of_running code word addr,
    fun hh => congrArg State.fault (fatal_of_halted code word addr hh)⟩

/-! ## The host operations past their limits (60_exceptions R205, R206) -/

theorem opLoad_of_overlong {bytes : List Byte} (s : State) (hl : 3584 < bytes.length) :
    opLoad bytes s = raiseFatal .loadOverflow 0x0000#16 0x0200#16 (scrambleProgramArea s) := by
  obtain ⟨h, -⟩ | ⟨-, h⟩ := opLoad_cases bytes s
  · omega
  · exact h

theorem opReadMemory_of_gt {a : Word} (s : State) (ha : 0xFFF < a.toNat) :
    opReadMemory a s = raiseFatal .badHostIndex a 0x0000#16 s := by
  obtain ⟨h, -⟩ | ⟨-, h⟩ := opReadMemory_cases a s
  · omega
  · exact h

theorem opReadRegister_of_gt {r : Nat} (s : State) (hr : 15 < r) :
    opReadRegister r s = raiseFatal .badHostIndex (indexWord r) 0x0000#16 s := by
  obtain ⟨h, -⟩ | ⟨-, h⟩ := opReadRegister_cases r s
  · omega
  · exact h

theorem opWriteRegister_of_gt {r : Nat} (v : Byte) (s : State) (hr : 15 < r) :
    opWriteRegister r v s = raiseFatal .badHostIndex (indexWord r) 0x0000#16 s := by
  obtain ⟨h, -⟩ | ⟨-, h⟩ := opWriteRegister_cases r v s
  · omega
  · exact h

theorem indexWord_toNat (r : Nat) : (indexWord r).toNat = r % 65536 := BitVec.toNat_ofNat r 16

/-- An overlong load writes inside the program area alone (60_exceptions R205). -/
theorem scrambleProgramArea_byteAt_outside {a : Nat} (s : State) (ha : a < 0x200 ∨ 0xFFF < a) :
    (scrambleProgramArea s).byteAt a = s.byteAt a :=
  Memory.read_writeBytes_ne s.mem _ (by rw [Vector.length_toList, Config.programBase]; omega)

/-! ## What every host operation does to the record, pc and the stack, said once -/

/-- The record, pc and the stack are as before: what a halted core keeps until reset (60_exceptions R207, R208). -/
def SameFaultPcStack (s t : State) : Prop := t.fault = s.fault ∧ t.pc = s.pc ∧ t.S = s.S

theorem SameFaultPcStack.refl (s : State) : SameFaultPcStack s s := ⟨rfl, rfl, rfl⟩

theorem SameFaultPcStack.trans {s t u : State} (h : SameFaultPcStack s t) (h' : SameFaultPcStack t u) :
    SameFaultPcStack s u := by
  obtain ⟨hf, hpc, hS⟩ := h
  obtain ⟨hf', hpc', hS'⟩ := h'
  exact ⟨hf'.trans hf, hpc'.trans hpc, hS'.trans hS⟩

theorem halted_eq_of_fault_eq {s t : State} (h : t.fault = s.fault) : t.halted = s.halted := by
  rw [State.halted, h, State.halted]

theorem SameFaultPcStack.halted_eq {s t : State} (h : SameFaultPcStack s t) : t.halted = s.halted := by
  obtain ⟨hfault, -, -⟩ := h
  exact halted_eq_of_fault_eq hfault

/-- The faults a host operation raises by its arguments alone, each with the record it asks for (60_exceptions R205, R206). -/
inductive HostFault : HostOp → FaultRecord → Prop
  | load (bytes : List Byte) (h : 3584 < bytes.length) : HostFault (.load bytes) ⟨.loadOverflow, 0x0000#16, 0x0200#16⟩
  | loadFile (bytes : List Byte) (h : 3584 < bytes.length) :
      HostFault (.loadFile (some bytes)) ⟨.loadOverflow, 0x0000#16, 0x0200#16⟩
  | readMemory (a : Word) (h : 0xFFF < a.toNat) : HostFault (.readMemory a) ⟨.badHostIndex, a, 0x0000#16⟩
  | readRegister (r : Nat) (h : 15 < r) : HostFault (.readRegister r) ⟨.badHostIndex, indexWord r, 0x0000#16⟩
  | writeRegister (r : Nat) (v : Byte) (h : 15 < r) :
      HostFault (.writeRegister r v) ⟨.badHostIndex, indexWord r, 0x0000#16⟩

/-- Such an operation enters its fault, after a change of memory at most. -/
theorem HostFault.perform_eq {op : HostOp} {r : FaultRecord} (h : HostFault op r) (s : State) :
    ∃ u, SameFaultPcStack s u ∧ perform op s = raiseFatal r.code r.word r.addr u := by
  cases h with
  | load bytes hl | loadFile bytes hl => exact ⟨scrambleProgramArea s, ⟨rfl, rfl, rfl⟩, opLoad_of_overlong s hl⟩
  | readMemory a ha => exact ⟨s, .refl s, opReadMemory_of_gt s ha⟩
  | readRegister r hr => exact ⟨s, .refl s, opReadRegister_of_gt s hr⟩
  | writeRegister r v hr => exact ⟨s, .refl s, opWriteRegister_of_gt v s hr⟩

theorem HostFault.code_cases {op : HostOp} {r : FaultRecord} (h : HostFault op r) :
    r.code = .loadOverflow ∨ r.code = .badHostIndex := by
  cases h with
  | load | loadFile => exact .inl rfl
  | readMemory | readRegister | writeRegister => exact .inr rfl

theorem HostFault.record_of_loadOverflow {op : HostOp} {r : FaultRecord} (h : HostFault op r) (hc : r.code = .loadOverflow) :
    r.word = 0x0000#16 ∧ r.addr = 0x0200#16 := by
  cases h with
  | load | loadFile => exact ⟨rfl, rfl⟩
  | readMemory | readRegister | writeRegister => cases hc

/-- The record of an index out of range holds it modulo 2^16 (60_exceptions R206). -/
theorem HostFault.record_of_badHostIndex {op : HostOp} {r : FaultRecord} (h : HostFault op r) (hc : r.code = .badHostIndex) :
    r.addr = 0x0000#16 ∧ (∀ a, op = .readMemory a → r.word = a)
      ∧ ∀ n, (op = .readRegister n ∨ ∃ v, op = .writeRegister n v) → r.word.toNat = n % 65536 := by
  cases h with
  | load | loadFile => cases hc
  | readMemory a _ => simp
  | readRegister n _ => simp [indexWord_toNat]
  | writeRegister n v _ => simp [indexWord_toNat]

/-- The courses of a host operation: it is a reset, it runs the clock, it cannot read its file, it faults by its arguments, or it
reports no failure and keeps the record, pc and the stack. `opCourse` ties it to `perform`. -/
inductive OpCourse (s : State) (op : HostOp) : Prop
  | resets (h : op = .reset)
  | clocks (h : op = .clock ∨ op = .step)
  | cannotRead (h : op = .loadFile none)
  | faults {r : FaultRecord} (h : HostFault op r)
  | quiet {result : HostResult} {t : State} (h : perform op s = (result, t)) (hk : result.kind = none)
      (ht : SameFaultPcStack s t)

theorem opCourse (op : HostOp) (s : State) : OpCourse s op := by
  cases op with
  | reset => exact .resets rfl
  | clock => exact .clocks (.inl rfl)
  | step => exact .clocks (.inr rfl)
  | load bytes =>
    obtain ⟨-, h⟩ | ⟨hl, -⟩ := opLoad_cases bytes s
    · exact .quiet h rfl ⟨rfl, rfl, rfl⟩
    · exact .faults (.load bytes hl)
  | loadFile contents =>
    cases contents with
    | none => exact .cannotRead rfl
    | some bytes =>
      obtain ⟨-, h⟩ | ⟨hl, -⟩ := opLoad_cases bytes s
      · exact .quiet h rfl ⟨rfl, rfl, rfl⟩
      · exact .faults (.loadFile bytes hl)
  | readMemory a =>
    obtain ⟨-, h⟩ | ⟨ha, -⟩ := opReadMemory_cases a s
    · exact .quiet h rfl (.refl s)
    · exact .faults (.readMemory a ha)
  | readRegister r =>
    obtain ⟨-, h⟩ | ⟨hr, -⟩ := opReadRegister_cases r s
    · exact .quiet h rfl (.refl s)
    · exact .faults (.readRegister r hr)
  | writeRegister r v =>
    obtain ⟨-, h⟩ | ⟨hr, -⟩ := opWriteRegister_cases r v s
    · exact .quiet h rfl ⟨rfl, rfl, rfl⟩
    · exact .faults (.writeRegister r v hr)
  | pause | unpause | togglePause | instructionPointer | readAddressRegister | writeAddressRegister =>
    exact .quiet rfl rfl ⟨rfl, rfl, rfl⟩

/-! ## Runs of host operations without a reset (60_exceptions R201, R208) -/

/-- What every operation but reset keeps holds along every run without one. -/
theorem runOps_keeps {P : State → Prop} (hstep : ∀ op t, op ≠ .reset → P t → P (perform op t).2) (ops : List HostOp)
    {s : State} (hr : HostOp.reset ∉ ops) (hs : P s) : P (runOps ops s).2 := by
  induction ops generalizing s with
  | nil => exact hs
  | cons op ops ih =>
    obtain ⟨hop, hops⟩ := List.ne_and_not_mem_of_not_mem_cons hr
    exact ih hops (hstep op s hop.symm hs)

theorem fetchWord_eq_none_iff (s : State) : fetchWord s = none ↔ 0xFFF ≤ s.pc.toNat := by
  obtain ⟨hpc, hf⟩ | ⟨hpc, hf⟩ := fetchWord_cases s <;> simp [hf] <;> omega

/-- Where the fetch fails, no operation but reset moves pc. -/
theorem perform_pc_of_no_fetch {op : HostOp} {s : State} (hr : op ≠ .reset) (hf : fetchWord s = none) :
    (perform op s).2.pc = s.pc := by
  by_cases hc : op = .clock
  · rw [hc, perform]
    obtain ⟨-, h⟩ | ⟨-, -, h⟩ | ⟨-, -, h⟩ := opClock_cases s
    · rw [h]
    · rw [h]
    · rw [h, runCycle_of_no_fetch hf]
  by_cases hs : op = .step
  · rw [hs, perform]
    obtain ⟨-, h⟩ | ⟨hh, -⟩ := opStep_cases s
    · rw [h]
    · rw [opStep_of_no_fetch hh hf]
  exact perform_pc s hr hc hs

theorem step_of_halted {s : State} (hp : s.paused = false) (hh : s.halted = true) : step s = .fault (.halted s.fault) := by
  simp [step, clockOutcome, hp, hh]

/-- On a halted core no operation but reset touches the record, pc or the stack. -/
theorem perform_sameFaultPcStack_of_halted {op : HostOp} {s : State} (hr : op ≠ .reset) (hh : s.halted = true) :
    SameFaultPcStack s (perform op s).2 := by
  cases opCourse op s with
  | resets h => exact absurd h hr
  | clocks h =>
    obtain rfl | rfl := h
    · rw [perform]
      cases hp : s.paused
      · rw [opClock_of_halted hp hh]
        exact .refl s
      · rw [opClock_of_paused hp]
        exact .refl s
    · rw [perform, opStep_of_halted hh]
      exact .refl s
  | cannotRead h =>
    subst h
    exact .refl s
  | faults h =>
    obtain ⟨u, hu, hraise⟩ := h.perform_eq s
    rw [hraise, raiseFatal_state, fatal_of_halted _ _ _ (hu.halted_eq.trans hh)]
    exact hu
  | quiet h _ ht =>
    rw [h]
    exact ht

theorem runOps_sameFaultPcStack_of_halted {ops : List HostOp} {s : State} (hr : HostOp.reset ∉ ops) (hh : s.halted = true) :
    SameFaultPcStack s (runOps ops s).2 :=
  runOps_keeps (fun _ _ hop ht => ht.trans (perform_sameFaultPcStack_of_halted hop (ht.halted_eq.trans hh))) ops hr (.refl s)

/-! ## Which handler raises which fault (60_exceptions R202-R204) -/

/-- The one condition on which an instruction's handler raises the fault of each code. -/
def HandlerFault (s : State) (i : Instr) : FaultCode → Prop
  | .unimplemented => ∃ w, i = .unimplemented w
  | .stackUnderflow => i = .ret ∧ s.S = []
  | .stackOverflow => (∃ addr, i = .call addr) ∧ s.S.length = s.env.stackCapacity
  | .noFault | .loadOverflow | .badHostIndex => False

/-- A handler enters the fault whose condition it meets, with its own word and address, or keeps the record. -/
theorem ExecEffect.handlerFault_cases {i : Instr} {s t : State} (h : ExecEffect s i t) :
    (∃ code, HandlerFault s i code ∧ t = fatal code (encode i) s.insnAddr s) ∨ t.fault = s.fault := by
  cases h
  case retUnderflow hS => exact .inl ⟨.stackUnderflow, ⟨rfl, hS⟩, rfl⟩
  case callOverflow addr hS => exact .inl ⟨.stackOverflow, ⟨⟨addr, rfl⟩, hS⟩, rfl⟩
  case unimplemented w => exact .inl ⟨.unimplemented, ⟨w, rfl⟩, rfl⟩
  all_goals exact .inr (by simp)

/-- Conversely, a handler that meets a condition enters that fault. -/
theorem exec_of_handlerFault {i : Instr} {s : State} {code : FaultCode} (h : HandlerFault s i code) :
    exec i s = .next (fatal code (encode i) s.insnAddr s) := by
  cases code with
  | unimplemented =>
    obtain ⟨w, rfl⟩ := h
    exact exec_of_execEffect (.unimplemented w)
  | stackUnderflow =>
    obtain ⟨rfl, hS⟩ := h
    exact exec_of_execEffect (.retUnderflow hS)
  | stackOverflow =>
    obtain ⟨⟨addr, rfl⟩, hS⟩ := h
    exact exec_of_execEffect (.callOverflow addr hS)
  | noFault | loadOverflow | badHostIndex => exact h.elim

theorem HandlerFault.ne_noFault {i : Instr} {s : State} {code : FaultCode} (h : HandlerFault s i code) :
    code ≠ .noFault := by
  rintro rfl
  exact h

/-- The advance of pc meets no condition and undoes none. -/
theorem handlerFault_advancePc (s : State) (i : Instr) (code : FaultCode) :
    HandlerFault (advancePc s) i code ↔ HandlerFault s i code := by
  cases code <;> rfl

theorem decode_eq_call_iff (w : Word) : (∃ addr, decode w = .call addr) ↔ w.toNat / 0x1000 = 2 := by
  have hclass : fieldClass w = 0x2#4 ↔ w.toNat / 0x1000 = 2 := by
    rw [← fieldClass_toNat, ← BitVec.toNat_inj]
    rfl
  rw [← hclass]
  refine ⟨?_, fun h => ⟨_, decode_call h⟩⟩
  rintro ⟨addr, h⟩
  rw [← encode_decode w, h, encode, fieldClass_formA]

theorem matchingMnemonics_eq_nil_iff (w : Word) : matchingMnemonics w = [] ↔ ∃ v, decode w = .unimplemented v := by
  rw [matchingMnemonics_decode, mnemonics_eq_nil_iff]

/-! ## The failures of a core that is not halted (60_exceptions R200) -/

/-- The operations that run a cycle of a core that is not halted (40_cycle R107, R108). -/
def RunsCycle (s : State) (op : HostOp) : Prop := op = .step ∨ (op = .clock ∧ s.paused = false)

/-- The fatal failures of an operation on a core that is not halted, with the record each leaves. -/
inductive FatalFailure (s : State) (op : HostOp) : FaultRecord → Prop
  | ofCycle {w : Word} {code : FaultCode} (hrun : RunsCycle s op) (hf : fetchWord s = some w)
      (hc : HandlerFault s (decode w) code) : FatalFailure s op ⟨code, w, s.pc⟩
  | ofHost {r : FaultRecord} (h : HostFault op r) : FatalFailure s op r

theorem FatalFailure.code_ne_noFault {s : State} {op : HostOp} {r : FaultRecord} (h : FatalFailure s op r) :
    r.code ≠ .noFault := by
  cases h with
  | ofCycle _ _ hc => exact hc.ne_noFault
  | ofHost h =>
    obtain hc | hc := h.code_cases <;> simp [hc]

/-- A failure with a code that no argument raises is one of a handler, and records the fetched word and its address. -/
theorem FatalFailure.cycle {s : State} {op : HostOp} {r : FaultRecord} (h : FatalFailure s op r)
    (hload : r.code ≠ .loadOverflow) (hindex : r.code ≠ .badHostIndex) :
    RunsCycle s op ∧ fetchWord s = some r.word ∧ HandlerFault s (decode r.word) r.code ∧ r.addr = s.pc := by
  cases h with
  | ofCycle hrun hf hc => exact ⟨hrun, hf, hc, rfl⟩
  | ofHost h =>
    obtain hc | hc := h.code_cases
    · exact absurd hc hload
    · exact absurd hc hindex

/-- A failure that no handler raises is raised by the operation's arguments. -/
theorem FatalFailure.hostFault {s : State} {op : HostOp} {r : FaultRecord} (h : FatalFailure s op r)
    (hc : ∀ i, ¬ HandlerFault s i r.code) : HostFault op r := by
  cases h with
  | ofCycle _ _ h => exact absurd h (hc _)
  | ofHost h => exact h

theorem fatalFailure_loadOverflow_iff {s : State} {op : HostOp} :
    (∃ r, FatalFailure s op r ∧ r.code = .loadOverflow)
      ↔ ∃ bytes, 3584 < bytes.length ∧ (op = .load bytes ∨ op = .loadFile (some bytes)) := by
  constructor
  · rintro ⟨r, hr, hc⟩
    cases hr.hostFault (by rw [hc]; exact fun _ => id) with
    | load bytes hl => exact ⟨bytes, hl, .inl rfl⟩
    | loadFile bytes hl => exact ⟨bytes, hl, .inr rfl⟩
    | readMemory | readRegister | writeRegister => cases hc
  · rintro ⟨bytes, hl, rfl | rfl⟩
    · exact ⟨_, .ofHost (.load bytes hl), rfl⟩
    · exact ⟨_, .ofHost (.loadFile bytes hl), rfl⟩

theorem fatalFailure_badHostIndex_iff {s : State} {op : HostOp} :
    (∃ r, FatalFailure s op r ∧ r.code = .badHostIndex)
      ↔ (∃ a : Word, 0xFFF < a.toNat ∧ op = .readMemory a)
        ∨ ∃ r, 15 < r ∧ (op = .readRegister r ∨ ∃ v, op = .writeRegister r v) := by
  constructor
  · rintro ⟨r, hr, hc⟩
    cases hr.hostFault (by rw [hc]; exact fun _ => id) with
    | readMemory a ha => exact .inl ⟨a, ha, rfl⟩
    | readRegister n hn => exact .inr ⟨n, hn, .inl rfl⟩
    | writeRegister n v hn => exact .inr ⟨n, hn, .inr ⟨v, rfl⟩⟩
    | load | loadFile => cases hc
  · rintro (⟨a, ha, rfl⟩ | ⟨r, hr, rfl | ⟨v, rfl⟩⟩)
    · exact ⟨_, .ofHost (.readMemory a ha), rfl⟩
    · exact ⟨_, .ofHost (.readRegister r hr), rfl⟩
    · exact ⟨_, .ofHost (.writeRegister r v hr), rfl⟩

/-! ### The kind and the code of a result -/

theorem HostResult.code_eq_none_of_kind {r : HostResult} (h : r.kind = none) : r.code = none := by
  cases r with
  | fetchError | fault | ioError => cases h
  | done | ok | byte | word | notRun => rfl

theorem HostResult.kind_eq_recoverable_iff (r : HostResult) :
    r.kind = some .recoverable ↔ r.code = some fetchErrorNumber ∨ r = .ioError := by
  cases r with
  | fault record => simp [record.code.number_ne_fetchErrorNumber]
  | _ => simp [HostResult.kind, HostResult.code]

/-! ## The courses of an operation on a core that is not halted -/

/-- An operation answers Fault with this record and leaves it in the state. -/
def AnswersFault (r : FaultRecord) (p : HostResult × State) : Prop := p.1 = .fault r ∧ p.2.fault = r

section Running

variable {s : State} (hh : s.halted = false)

include hh

theorem raiseFatal_answersFault (code : FaultCode) (word addr : Word) :
    AnswersFault ⟨code, word, addr⟩ (raiseFatal code word addr s) := by
  rw [raiseFatal_of_noFault code word addr hh]
  exact ⟨rfl, rfl⟩

/-- A step puts back a flag that no cycle writes, so it is a cycle and nothing more. -/
theorem perform_of_runsCycle {op : HostOp} (hrun : RunsCycle s op) : perform op s = runCycle s := by
  obtain rfl | ⟨rfl, hp⟩ := hrun
  · obtain ⟨-, hr⟩ | ⟨w, t, -, hf, he, hr⟩ := runCycle_cases s <;> rw [perform, hr]
    · rw [opStep_of_running hh, hr, setPaused_self]
    · exact opStep_of_exec hh hf he
  · exact opClock_of_running hp hh

theorem runCycle_of_handlerFault {w : Word} {code : FaultCode} (hf : fetchWord s = some w)
    (hc : HandlerFault s (decode w) code) : AnswersFault ⟨code, w, s.pc⟩ (runCycle s) := by
  have he := exec_of_handlerFault ((handlerFault_advancePc s _ code).2 hc)
  rw [encode_decode, insnAddr_advancePc] at he
  obtain ⟨ht, hrec, -⟩ := fatal_record w s.pc (advancePc s) hc.ne_noFault
  rw [runCycle_of_exec hf he, if_pos ht, hrec hh]
  exact ⟨rfl, hrec hh⟩

/-- The three courses of a cycle: the fetch fails, the handler meets the condition of a fault, or nothing fails. -/
theorem runCycle_failure_cases :
    (0xFFF ≤ s.pc.toNat ∧ runCycle s = (.fetchError s.pc, s))
      ∨ (∃ w code, fetchWord s = some w ∧ HandlerFault s (decode w) code)
      ∨ ∃ t, t.halted = false ∧ runCycle s = (.ok, t) := by
  obtain ⟨hpc, hr⟩ | ⟨w, t, -, hf, he, hr⟩ := runCycle_cases s
  · exact .inl ⟨hpc, hr⟩
  · obtain ⟨code, hc, -⟩ | hfault := (execEffect_of_exec he).handlerFault_cases
    · exact .inr (.inl ⟨w, code, hf, (handlerFault_advancePc s _ code).1 hc⟩)
    · have ht : t.halted = false := (halted_eq_of_fault_eq hfault).trans hh
      rw [if_neg (by simp [ht])] at hr
      exact .inr (.inr ⟨t, ht, hr⟩)

theorem FatalFailure.answersFault {op : HostOp} {r : FaultRecord} (h : FatalFailure s op r) :
    AnswersFault r (perform op s) := by
  cases h with
  | ofCycle hrun hf hc =>
    rw [perform_of_runsCycle hh hrun]
    exact runCycle_of_handlerFault hh hf hc
  | ofHost h =>
    obtain ⟨u, hu, hraise⟩ := h.perform_eq s
    rw [hraise]
    exact raiseFatal_answersFault (hu.halted_eq.trans hh) _ _ _

/-- The four courses of an operation: FetchError, IoError, a fatal failure, or no failure. -/
theorem perform_failure_cases (op : HostOp) :
    (RunsCycle s op ∧ 0xFFF ≤ s.pc.toNat ∧ perform op s = (.fetchError s.pc, s))
      ∨ (op = .loadFile none ∧ perform op s = (.ioError, s))
      ∨ (∃ r, FatalFailure s op r ∧ AnswersFault r (perform op s))
      ∨ ((perform op s).1.kind = none ∧ (perform op s).2.halted = false) := by
  by_cases hrun : RunsCycle s op
  · rw [perform_of_runsCycle hh hrun]
    obtain ⟨hpc, hr⟩ | ⟨w, code, hf, hc⟩ | ⟨t, ht, hr⟩ := runCycle_failure_cases hh
    · exact .inl ⟨hrun, hpc, hr⟩
    · exact .inr (.inr (.inl ⟨_, .ofCycle hrun hf hc, runCycle_of_handlerFault hh hf hc⟩))
    · rw [hr]
      exact .inr (.inr (.inr ⟨rfl, ht⟩))
  · cases opCourse op s with
    | resets h =>
      subst h
      exact .inr (.inr (.inr ⟨rfl, rfl⟩))
    | clocks h =>
      obtain rfl | rfl := h
      · have hp : s.paused = true := by simpa [RunsCycle] using hrun
        rw [perform, opClock_of_paused hp]
        exact .inr (.inr (.inr ⟨rfl, hh⟩))
      · exact absurd (.inl rfl) hrun
    | cannotRead h =>
      subst h
      exact .inr (.inl ⟨rfl, rfl⟩)
    | faults h => exact .inr (.inr (.inl ⟨_, .ofHost h, FatalFailure.answersFault hh (.ofHost h)⟩))
    | quiet h hk ht =>
      rw [h]
      exact .inr (.inr (.inr ⟨hk, ht.halted_eq.trans hh⟩))

/-! ### The code and the kind of the result -/

theorem perform_of_fetch_fails {op : HostOp} (hrun : RunsCycle s op) (hpc : 0xFFF ≤ s.pc.toNat) :
    perform op s = (.fetchError s.pc, s) := by
  rw [perform_of_runsCycle hh hrun, runCycle_of_no_fetch (fetchWord_of_ge hpc)]

theorem code_eq_fetchErrorNumber_iff (op : HostOp) :
    (perform op s).1.code = some fetchErrorNumber ↔ RunsCycle s op ∧ 0xFFF ≤ s.pc.toNat := by
  constructor
  · intro hcode
    obtain ⟨hrun, hpc, -⟩ | ⟨-, h⟩ | ⟨r, -, h, -⟩ | ⟨hk, -⟩ := perform_failure_cases hh op
    · exact ⟨hrun, hpc⟩
    · rw [h] at hcode
      cases hcode
    · rw [h, HostResult.code_fault, Option.some.injEq] at hcode
      exact absurd hcode r.code.number_ne_fetchErrorNumber
    · rw [HostResult.code_eq_none_of_kind hk] at hcode
      cases hcode
  · rintro ⟨hrun, hpc⟩
    rw [perform_of_fetch_fails hh hrun hpc, HostResult.code_fetchError]

/-- A result with a fault's code answers a fatal failure with that code, and the record is left in the state. -/
theorem fatalFailure_of_code {op : HostOp} {c : FaultCode} (hcode : (perform op s).1.code = some c.number) :
    FatalFailure s op (perform op s).2.fault ∧ (perform op s).2.fault.code = c := by
  obtain ⟨-, -, h⟩ | ⟨-, h⟩ | ⟨r, hr, h, hfault⟩ | ⟨hk, -⟩ := perform_failure_cases hh op
  · rw [h, HostResult.code_fetchError, Option.some.injEq] at hcode
    exact absurd hcode.symm c.number_ne_fetchErrorNumber
  · rw [h] at hcode
    cases hcode
  · rw [h, HostResult.code_fault, Option.some.injEq] at hcode
    rw [hfault]
    exact ⟨hr, FaultCode.number_inj hcode⟩
  · rw [HostResult.code_eq_none_of_kind hk] at hcode
    cases hcode

theorem code_eq_number_iff (op : HostOp) (c : FaultCode) :
    (perform op s).1.code = some c.number ↔ ∃ r, FatalFailure s op r ∧ r.code = c := by
  refine ⟨fun hcode => ⟨_, fatalFailure_of_code hh hcode⟩, ?_⟩
  rintro ⟨r, hr, rfl⟩
  obtain ⟨h, -⟩ := hr.answersFault hh
  rw [h, HostResult.code_fault]

/-- The codes that only a handler raises, by what is fetched and by the handler's condition. -/
theorem code_eq_number_iff_handlerFault (op : HostOp) {c : FaultCode} (hload : c ≠ .loadOverflow) (hindex : c ≠ .badHostIndex) :
    (perform op s).1.code = some c.number
      ↔ RunsCycle s op ∧ ∃ w, fetchWord s = some w ∧ HandlerFault s (decode w) c := by
  rw [code_eq_number_iff hh]
  constructor
  · rintro ⟨r, hr, rfl⟩
    obtain ⟨hrun, hf, hc, -⟩ := hr.cycle hload hindex
    exact ⟨hrun, r.word, hf, hc⟩
  · rintro ⟨hrun, w, hf, hc⟩
    exact ⟨_, .ofCycle hrun hf hc, rfl⟩

/-- A failure with such a code records the fetched word and its address. -/
theorem record_of_handlerFault_code {op : HostOp} {c : FaultCode} (hcode : (perform op s).1.code = some c.number)
    (hload : c ≠ .loadOverflow) (hindex : c ≠ .badHostIndex) :
    fetchWord s = some (perform op s).2.fault.word ∧ (perform op s).2.fault.addr = s.pc := by
  obtain ⟨hr, rfl⟩ := fatalFailure_of_code hh hcode
  obtain ⟨-, hf, -, haddr⟩ := hr.cycle hload hindex
  exact ⟨hf, haddr⟩

/-- A failure with a code that no handler raises is one of the operation's arguments. -/
theorem hostFault_of_code {op : HostOp} {c : FaultCode} (hcode : (perform op s).1.code = some c.number)
    (hc : ∀ i, ¬ HandlerFault s i c) : HostFault op (perform op s).2.fault ∧ (perform op s).2.fault.code = c := by
  obtain ⟨hr, rfl⟩ := fatalFailure_of_code hh hcode
  exact ⟨hr.hostFault hc, rfl⟩

theorem perform_eq_ioError_iff (op : HostOp) : (perform op s).1 = .ioError ↔ op = .loadFile none := by
  constructor
  · intro hio
    obtain ⟨-, -, h⟩ | ⟨hop, -⟩ | ⟨r, -, h, -⟩ | ⟨hk, -⟩ := perform_failure_cases hh op
    · rw [h] at hio
      cases hio
    · exact hop
    · rw [h] at hio
      cases hio
    · rw [hio] at hk
      cases hk
  · rintro rfl
    rfl

theorem state_eq_of_recoverable {op : HostOp} (hk : (perform op s).1.kind = some .recoverable) : (perform op s).2 = s := by
  obtain hcode | hio := (HostResult.kind_eq_recoverable_iff _).1 hk
  · obtain ⟨hrun, hpc⟩ := (code_eq_fetchErrorNumber_iff hh op).1 hcode
    rw [perform_of_fetch_fails hh hrun hpc]
  · rw [(perform_eq_ioError_iff hh op).1 hio]
    rfl

/-- A result is fatal exactly when the core is halted afterwards, and it then carries the record. -/
theorem kind_eq_fatal_iff (op : HostOp) :
    ((perform op s).1.kind = some .fatal ↔ (perform op s).2.halted = true)
      ∧ ((perform op s).1.kind = some .fatal → (perform op s).1 = .fault (perform op s).2.fault) := by
  obtain ⟨-, -, h⟩ | ⟨-, h⟩ | ⟨r, hr, h, hfault⟩ | ⟨hk, ht⟩ := perform_failure_cases hh op
  · simp [h, hh]
  · simp [h, hh, HostResult.kind]
  · have ht : (perform op s).2.halted = true := by
      rw [halted_eq_true_iff, hfault]
      exact hr.code_ne_noFault
    simp [h, hfault, ht]
  · simp [hk, ht]

end Running

/-! ## The obligations, by tier -/

/-- Settles O34: every operation but reset keeps the record, pc and the stack, so the core that a run leaves is halted still. -/
theorem haltedUntilReset : Obligations.HaltedUntilReset := by
  intro ops s hr hh
  have hsame := runOps_sameFaultPcStack_of_halted hr hh
  have hh' := hsame.halted_eq.trans hh
  obtain ⟨hfault, hpc, hS⟩ := hsame
  rw [← hfault]
  exact ⟨rfl, hpc, hS, opStep_of_halted hh', fun hp => ⟨opClock_of_halted hp hh', step_of_halted hp hh'⟩⟩

/-- Settles O24: the fallback's effect is the fault entry, on a core with no record yet. -/
theorem unimplementedWordFaults : Obligations.UnimplementedWordFaults := by
  refine ⟨fun w hw => ?_, decode_unimplemented rfl, fun w s hh => ?_⟩
  · obtain ⟨v, hv⟩ := (matchingMnemonics_eq_nil_iff w).1 hw
    exact eq_of_decode_unimplemented hv ▸ hv
  · exact ⟨_, exec_of_execEffect (.unimplemented w), fatal_fault_of_running _ _ _ hh, fatal_halted _ _ s (by decide),
      fatal_pc s _ _ _, fatal_I s _ _ _, fatal_S s _ _ _, fatal_env s _ _ _, fatal_paused s _ _ _,
      fatal_readV s _ _ _, fatal_byteAt s _ _ _⟩

/-- Settles O33: whether the fetch fails depends on pc alone, which no operation but reset moves there. -/
theorem stuckUntilReset : Obligations.StuckUntilReset := by
  intro ops s hr hf
  have no_fetch {t : State} (ht : t.pc = s.pc) : fetchWord t = none := by
    rw [fetchWord_eq_none_iff] at hf ⊢
    rwa [ht]
  have hpc : (runOps ops s).2.pc = s.pc :=
    runOps_keeps (P := fun t => t.pc = s.pc) (fun _ _ hop ht => (perform_pc_of_no_fetch hop (no_fetch ht)).trans ht) ops hr rfl
  exact ⟨hpc, no_fetch hpc⟩

/-- Settles O39: the fault entry changes the record alone, on a core whose program area alone has changed (D12). -/
theorem overlongLoadFaultsAndSparesTheRest : Obligations.OverlongLoadFaultsAndSparesTheRest := by
  intro s bytes hl
  obtain ⟨hhalt, hnew, hold⟩ := fatal_record (code := .loadOverflow) 0x0000#16 0x0200#16 (scrambleProgramArea s) (by decide)
  exact ⟨_, opLoad_of_overlong s hl, hhalt, hnew, hold,
    fun a ha => (fatal_byteAt _ _ _ _ a).trans (scrambleProgramArea_byteAt_outside s ha),
    fatal_pc _ _ _ _, fatal_I _ _ _ _, fatal_S _ _ _ _, fatal_paused _ _ _ _, fatal_readV _ _ _ _⟩

/-- Settles O41: each accessor enters the fault with its index as a word (D13). -/
theorem badHostIndexFaults : Obligations.BadHostIndexFaults := by
  intro s op k hop
  obtain ⟨w, hw, hraise⟩ : ∃ w : Word, w.toNat = k % 65536 ∧ perform op s = raiseFatal .badHostIndex w 0x0000#16 s := by
    obtain ⟨a, rfl, rfl, ha⟩ | ⟨hk, rfl | ⟨v, rfl⟩⟩ := hop
    · exact ⟨a, by omega, opReadMemory_of_gt s ha⟩
    · exact ⟨indexWord k, indexWord_toNat k, opReadRegister_of_gt s hk⟩
    · exact ⟨indexWord k, indexWord_toNat k, opWriteRegister_of_gt v s hk⟩
  obtain ⟨hhalt, hnew, hold⟩ := fatal_record (code := .badHostIndex) w 0x0000#16 s (by decide)
  refine ⟨_, hraise, fatal_eq_withFault _ _ _ s, hhalt, fun hh => ?_, hold⟩
  rw [hnew hh]
  exact ⟨rfl, hw, rfl⟩

/-- Settles O54: a result with a code answers a failure with that code, and each failure has its cause: the cycle's fetch and
handler, or the operation's arguments. -/
theorem eachFailureIsRaisedByItsCause : Obligations.EachFailureIsRaisedByItsCause := by
  refine ⟨fun op s hh => ?_, fun s f hs => ?_⟩
  · refine ⟨code_eq_fetchErrorNumber_iff hh op, ?_, ?_, ?_,
      (code_eq_number_iff hh op .loadOverflow).trans fatalFailure_loadOverflow_iff,
      (code_eq_number_iff hh op .badHostIndex).trans fatalFailure_badHostIndex_iff, perform_eq_ioError_iff hh op⟩
    · simp only [matchingMnemonics_eq_nil_iff]
      exact code_eq_number_iff_handlerFault hh op (c := .unimplemented) (by decide) (by decide)
    · refine (code_eq_number_iff_handlerFault hh op (c := .stackUnderflow) (by decide) (by decide)).trans ?_
      simp [HandlerFault, RunsCycle, decode_eq_ret_iff]
    · refine (code_eq_number_iff_handlerFault hh op (c := .stackOverflow) (by decide) (by decide)).trans ?_
      simp only [HandlerFault, decode_eq_call_iff]
      exact and_congr_right fun _ => ⟨fun ⟨w, hf, hw, hS⟩ => ⟨hS, w, hf, hw⟩, fun ⟨hS, w, hf, hw⟩ => ⟨w, hf, hw, hS⟩⟩
  · obtain ⟨-, h, -⟩ | ⟨-, h, hc⟩ | ⟨-, h, hc⟩ | ⟨-, t, h, -⟩ := step_opClock_cases s <;> rw [h] at hs <;> cases hs
    · rw [perform, hc]
      rfl
    · rw [perform, hc]
      rfl

/-- Settles O55: the recoverable results are FetchError and IoError, and every other failure is one whose record its cause
fixes. -/
theorem failureKindsAndRecords : Obligations.FailureKindsAndRecords := by
  refine ⟨FaultCode.number_ne_fetchErrorNumber, fun op s hh => ?_⟩
  obtain ⟨hfatal, hrecord⟩ := kind_eq_fatal_iff hh op
  refine ⟨HostResult.kind_eq_recoverable_iff _, state_eq_of_recoverable hh, fun hcode => ?_, hfatal, fun hk => ?_, ?_,
    fun hcode => ?_, fun hcode => ?_⟩
  · obtain ⟨hrun, hpc⟩ := (code_eq_fetchErrorNumber_iff hh op).1 hcode
    exact congrArg Prod.fst (perform_of_fetch_fails hh hrun hpc)
  · exact ⟨hrecord hk, congrArg HostResult.code (hrecord hk)⟩
  · rintro (hcode | hcode | hcode)
    · exact record_of_handlerFault_code hh (c := .unimplemented) hcode (by decide) (by decide)
    · exact record_of_handlerFault_code hh (c := .stackUnderflow) hcode (by decide) (by decide)
    · exact record_of_handlerFault_code hh (c := .stackOverflow) hcode (by decide) (by decide)
  · obtain ⟨hf, hc⟩ := hostFault_of_code hh (c := .loadOverflow) hcode (fun _ => id)
    exact hf.record_of_loadOverflow hc
  · obtain ⟨hf, hc⟩ := hostFault_of_code hh (c := .badHostIndex) hcode (fun _ => id)
    exact hf.record_of_badHostIndex hc

end Sys2Proof.Machine

/-! # Boot and the ends of a run (70_reset_and_hazards) -/

namespace Sys2Proof.Machine

/-! ## The jump to the pc it was fetched from (70_reset_and_hazards R256) -/

/-- A handler that takes pc elsewhere than to the next instruction or the one after it, and keeps the stack, is JP's: RET and CALL
change the depth of the stack or fault, and the others leave pc to the advance and the skip. -/
theorem ExecEffect.jp_of_pc_ne {i : Instr} {s t : State} (h : ExecEffect s i t) (hS : t.S = s.S) (hnext : t.pc ≠ s.pc)
    (hskip : t.pc ≠ s.pc + 2) : ∃ addr, i = .jp addr ∧ zextAddr addr = t.pc := by
  cases h
  case jp addr => exact ⟨addr, rfl, rfl⟩
  case retPop rest r hpop => simp [hpop] at hS
  case callPush addr _ => simp at hS
  case se | sne | sknp => exact absurd (skipIf_pc_cases _ _) (by simpa using ⟨hnext, hskip⟩)
  all_goals exact absurd (by simp) hnext

/-- The one instruction that undoes the advance of pc and nothing else is a jump to its own address. -/
theorem exec_advancePc_eq_self_iff (i : Instr) (s : State) :
    exec i (advancePc s) = .next s ↔ ∃ addr, i = .jp addr ∧ zextAddr addr = s.pc := by
  constructor
  · intro h
    have hnext : s.pc ≠ s.pc + 2 := by bv_omega
    have hskip : s.pc ≠ s.pc + 2 + 2 := by bv_omega
    exact (execEffect_of_exec h).jp_of_pc_ne rfl hnext hskip
  · rintro ⟨addr, rfl, haddr⟩
    rw [exec_of_execEffect (.jp addr), haddr]
    rfl

theorem decode_eq_jp_iff (w : Word) (addr : Addr12) : decode w = .jp addr ↔ w = 0x1000#16 ||| zextAddr addr := by
  have hword : encode (.jp addr) = 0x1000#16 ||| zextAddr addr := formA_eq_or 0x1#4 addr
  rw [← hword]
  constructor
  · intro h
    rw [← h, encode_decode]
  · rintro rfl
    exact decode_encode rfl

theorem zextAddr_setWidth {pc : Word} (hpc : pc.toNat ≤ 0xFFF) : zextAddr (pc.setWidth 12) = pc := by
  rw [zextAddr]
  bv_omega

theorem idle_iff (s : State) : s.idle = true ↔ s.halted = false ∧ fetchWord s = some (0x1000#16 ||| s.pc) := by
  simp [State.idle]

/-- Idle, told by what the handler does: it runs, and goes back to the state before the advance. -/
theorem idle_iff_exec_eq_self (s : State) :
    s.idle = true ↔ s.halted = false ∧ ∃ w, fetchWord s = some w ∧ exec (decode w) (advancePc s) = .next s := by
  simp only [idle_iff, exec_advancePc_eq_self_iff, decode_eq_jp_iff]
  refine and_congr_right fun _ => ⟨fun hf => ?_, ?_⟩
  · have hpc : s.pc.toNat < 0xFFF := by
      by_contra hge
      rw [fetchWord_of_ge (not_lt.1 hge)] at hf
      cases hf
    have haddr : zextAddr (s.pc.setWidth 12) = s.pc := zextAddr_setWidth hpc.le
    exact ⟨_, hf, s.pc.setWidth 12, by rw [haddr], haddr⟩
  · rintro ⟨w, hf, addr, rfl, haddr⟩
    rwa [← haddr]

/-! ## Boot (70_reset_and_hazards R252) -/

theorem resetCore_halted (s : State) : (resetCore s).halted = false := rfl

theorem fetchWord_resetCore (s : State) : fetchWord (resetCore s) = some 0x0000#16 := by
  rw [fetchWord_of_le (by rw [resetCore_pc]; decide), resetCore_byteAt, resetCore_byteAt]
  rfl

/-- After a reset and a load that fits the first fetch gives the first two bytes of the program. -/
theorem fetchWord_storeProgram_resetCore (b0 b1 : Byte) {rest : List Byte} (s : State) (hl : rest.length ≤ 3582) :
    fetchWord (storeProgram (b0 :: b1 :: rest) (resetCore s)) = some (wordOfBytes b0 b1) := by
  have hfits : (b0 :: b1 :: rest).length ≤ 3584 := by
    simp only [List.length_cons]
    omega
  have hbyte (k : Nat) (hk : k < (b0 :: b1 :: rest).length) :=
    storeProgram_byteAt_program (resetCore_mem_wf s) hfits hk
  have hpc : (storeProgram (b0 :: b1 :: rest) (resetCore s)).pc.toNat = 0x200 := rfl
  rw [fetchWord_of_le (by omega), hpc]
  exact congrArg₂ (fun hi lo => some (wordOfBytes hi lo)) (hbyte 0 (by simp)) (hbyte 1 (by simp))

/-! ## The obligations, by tier -/

/-- Settles O32: a clock that answers the same state ran a handler that went back to it, and only the jump of an idle core
does (D27). -/
theorem idleIsWhereAClockChangesNothing : Obligations.IdleIsWhereAClockChangesNothing := by
  intro s hp
  rw [idle_iff_exec_eq_self]
  refine ⟨⟨fun h => ?_, fun ⟨hh, w, hf, he⟩ => (step_of_fetch hp hh hf).trans he⟩, fun ⟨hh, w, hf, he⟩ => ?_⟩
  · obtain ⟨hpaused, -⟩ | ⟨-, hh, w, -, hf, he⟩ := step_next_cases h
    · simp [hp] at hpaused
    · exact ⟨hh, w, hf, he⟩
  · rw [perform, perform, opClock_of_running hp hh, runCycle_of_exec hf he, opStep_of_exec hh hf he]
    simp [hh]

/-- Settles O38: the load leaves pc at 0x200 and its first two bytes there, and with no load 0x0000 stands there, which no row of
the opcode map matches. -/
theorem bootRunsTheFirstWordOfTheProgram : Obligations.BootRunsTheFirstWordOfTheProgram := by
  refine fun s => ⟨fun b0 b1 rest hl => ?_, ?_⟩
  · have hload : (runOps [.reset, .load (b0 :: b1 :: rest)] s).2 = storeProgram (b0 :: b1 :: rest) (resetCore s) :=
      congrArg Prod.snd (opLoad_of_fits (resetCore s) (by simp only [List.length_cons]; omega))
    rw [hload]
    exact ⟨step_of_fetch rfl (resetCore_halted s) (fetchWord_storeProgram_resetCore b0 b1 s hl), rfl, rfl⟩
  · have hrun : (advancePc (resetCore s)).halted = false := resetCore_halted s
    have hstep : step (resetCore s) = exec (.unimplemented 0x0000#16) (advancePc (resetCore s)) := by
      rw [step_of_fetch rfl (resetCore_halted s) (fetchWord_resetCore s), decode_unimplemented rfl]
    exact ⟨_, hstep.trans (exec_of_execEffect (.unimplemented 0x0000#16)), fatal_pc _ _ _ _,
      by rw [fatal_fault_of_running _ _ _ hrun, insnAddr_advancePc, resetCore_pc]⟩

end Sys2Proof.Machine
